-- ==== Sys2Proof/Word.lean ====
section
/-! DEFINITION. The two word widths of the block: bytes and 16-bit addresses. -/

namespace Sys2Proof

/-- A byte of a frame, of a payload or of one of the chip's registers. -/
abbrev Byte := BitVec 8

/-- A page address or a column address (spec/00_scope.md R11): 16 bits, unsigned. -/
abbrev Word := BitVec 16

end Sys2Proof
end

