-- ==== Sys2Proof/Config.lean ====
section
/-! DEFINITION. The exposed constants (spec/00_scope.md R9, R10), the parameters the spec leaves open (R12), and the
values the environment chooses freely (spec/20_memory.md R59). -/

namespace Sys2Proof

/-- `PAGE_DATA_SIZE` (R9). -/
def pageDataSize : Nat := 2048

/-- `PAGE_TOTAL_SIZE` (R9): the data bytes and the ECC bytes. -/
def pageTotalSize : Nat := 2112

/-- `PAGES_PER_BLOCK` (R9). -/
def pagesPerBlock : Nat := 64

/-- `BLOCK_DATA_SIZE` (R9). -/
def blockDataSize : Nat := pagesPerBlock * pageDataSize

/-- `LUT_ENTRIES` (R10). -/
def lutEntries : Nat := 20

/-- `LUT_ENTRY_BYTES` (R10). -/
def lutEntryBytes : Nat := 4

/-- The bytes of the raw bad-block table (R10). -/
def lutBytes : Nat := lutEntries * lutEntryBytes

/-- `ERASE_ADDRESS_FORM` (R12, spec/92_eei_decisions.md D13): which address block erase sends. -/
inductive EraseAddressForm where
  | pageAsGiven
  | blockAligned
deriving DecidableEq, Repr, Inhabited

/-- `QUAD_READ_METHOD` (R12, D17): what `quad_read_data_buffer` stands for. -/
inductive QuadReadMethod where
  | fastReadQuadOutput
  | fastReadQuadIO
deriving DecidableEq, Repr, Inhabited

/-- The failures a transport primitive reports (R15). -/
inductive TransportError where
  | busy
  | address
  | unknown
deriving DecidableEq, Repr, Inhabited

/-! The layouts of the chip's three registers: parameter `REG_LAYOUT` (R12, spec/10_state.md R32). The one table that
gives its default is `Machine.regLayout` in Machine/Flags.lean. -/

/-- Which bit of the status byte holds which field (spec/10_state.md R33). -/
structure StatusLayout where
  deviceBusy : Fin 8
  writeEnableLatch : Fin 8
  eraseFailure : Fin 8
  writeFailure : Fin 8
  ecc0 : Fin 8
  ecc1 : Fin 8
  bbmLutFull : Fin 8
deriving DecidableEq, Repr

/-- Which bit of the protection byte holds which field (spec/10_state.md R35). -/
structure ProtectionLayout where
  srp0 : Fin 8
  bp3 : Fin 8
  bp2 : Fin 8
  bp1 : Fin 8
  bp0 : Fin 8
  tb : Fin 8
  wpe : Fin 8
  srp1 : Fin 8
deriving DecidableEq, Repr

/-- Which bit of the configuration byte holds which field (spec/10_state.md R36); the other three are reserved. -/
structure ConfigurationLayout where
  otpL : Fin 8
  otpE : Fin 8
  sr1L : Fin 8
  eccE : Fin 8
  buf : Fin 8
deriving DecidableEq, Repr

/-- The whole of `REG_LAYOUT`: for each register, the bit of each of its fields (R32). -/
structure RegLayout where
  status : StatusLayout
  protection : ProtectionLayout
  configuration : ConfigurationLayout
deriving DecidableEq, Repr

/-- The bits that hold a field; the others are reserved (spec/10_state.md R38). -/
abbrev StatusLayout.bits (l : StatusLayout) : List (Fin 8) :=
  [l.deviceBusy, l.writeEnableLatch, l.eraseFailure, l.writeFailure, l.ecc0, l.ecc1, l.bbmLutFull]

/-- The bits that hold a field. -/
abbrev ProtectionLayout.bits (l : ProtectionLayout) : List (Fin 8) :=
  [l.srp0, l.bp3, l.bp2, l.bp1, l.bp0, l.tb, l.wpe, l.srp1]

/-- The bits that hold a field; the others are reserved (R38). -/
abbrev ConfigurationLayout.bits (l : ConfigurationLayout) : List (Fin 8) := [l.otpL, l.otpE, l.sr1L, l.eccE, l.buf]

/-- Each field has a bit of its own ("each field maps to exactly one bit", R32). -/
abbrev StatusLayout.Distinct (l : StatusLayout) : Prop := l.bits.Nodup

/-- Each field has a bit of its own (R32). -/
abbrev ProtectionLayout.Distinct (l : ProtectionLayout) : Prop := l.bits.Nodup

/-- Each field has a bit of its own (R32). -/
abbrev ConfigurationLayout.Distinct (l : ConfigurationLayout) : Prop := l.bits.Nodup

/-- In every register each field has a bit of its own (R32). -/
abbrev RegLayout.Distinct (l : RegLayout) : Prop :=
  l.status.Distinct ∧ l.protection.Distinct ∧ l.configuration.Distinct

/-- The parameters of R12 that the block's rules read. State carries one such record, which no step writes, so a
statement about every state is a statement about every value of the parameters. -/
structure Config where
  /-- `ERASE_ADDRESS_FORM`, OPEN (D13). -/
  eraseAddressForm : EraseAddressForm
  /-- `QUAD_READ_METHOD`, default `FastReadQuadOutput` (D17). -/
  quadReadMethod : QuadReadMethod
  /-- How far `MAX_XFER` exceeds the 2112 bytes it is at least (D21). -/
  xferMargin : Nat
  /-- `REG_LAYOUT`, default `Machine.regLayout` (D7). -/
  regLayout : RegLayout
deriving DecidableEq, Repr

namespace Config

/-- `MAX_XFER` (R12, D21): the largest data phase the transport accepts, at least 2112 bytes. -/
def maxXfer (c : Config) : Nat := pageTotalSize + c.xferMargin

/-- `1 <= n <= MAX_XFER` (spec/20_memory.md R50), the lengths below 2113 decided without the open part. -/
def lengthOk (c : Config) (n : Nat) : Bool :=
  decide (1 ≤ n) && (decide (n ≤ pageTotalSize) || decide (n ≤ c.maxXfer))

/-- FREE VALUE (log entry 3). The value of the OPEN parameter `ERASE_ADDRESS_FORM` in the machine right after reset. -/
opaque openEraseAddressForm : EraseAddressForm

/-- FREE VALUE (log entry 3). The open part of the OPEN parameter `MAX_XFER` in the machine right after reset. -/
opaque openXferMargin : Nat

/-- The parameters of the machine right after reset: the OPEN ones unconstrained, `QUAD_READ_METHOD` at its default,
`REG_LAYOUT` as given. -/
def atReset (layout : RegLayout) : Config :=
  { eraseAddressForm := openEraseAddressForm
    quadReadMethod := .fastReadQuadOutput
    xferMargin := openXferMargin
    regLayout := layout }

/-- FREE VALUE (log entry 4). Whether, and how, the transport call with this number fails when no answer is scripted
(R59: any result). -/
opaque freeFailure : Nat → Option TransportError

/-- FREE VALUE (log entry 4). Byte number `i` of what the environment returns to call number `k` where nothing fixes it
(R59: any bytes), as `freeByte k i`. -/
opaque freeByte : Nat → Nat → Byte

end Config

end Sys2Proof
end

