-- ==== Sys2Proof/Syntax.lean ====
section
/-! DEFINITION. What the block takes in and what it sends out: the operands, the requests and the bus commands (one
constructor of Instr per row of spec/opcode_table.json), and the descriptors handed to the transport. -/

namespace Sys2Proof

/-- The ECC outcome decoded from the status byte (spec/10_state.md R34). -/
inductive EccStatus where
  | successful
  | correctedSuccessfully
  | singlePageError
  | multiPageError
deriving DecidableEq, Repr

/-- The fields of the status register, a read-only view (spec/10_state.md R33). -/
structure StatusRegister where
  deviceBusy : Bool
  writeEnableLatch : Bool
  eraseFailure : Bool
  writeFailure : Bool
  eccStatus : EccStatus
  bbmLutFull : Bool
deriving DecidableEq, Repr

/-- The fields of the protection register (spec/10_state.md R35). -/
structure ProtectionRegister where
  srp0 : Bool
  bp3 : Bool
  bp2 : Bool
  bp1 : Bool
  bp0 : Bool
  tb : Bool
  wpe : Bool
  srp1 : Bool
deriving DecidableEq, Repr

/-- The fields of the configuration register (spec/10_state.md R36). -/
structure ConfigurationRegister where
  otpL : Bool
  otpE : Bool
  sr1L : Bool
  eccE : Bool
  buf : Bool
deriving DecidableEq, Repr

/-- The chip's three registers (spec/10_state.md R31). -/
inductive ChipRegister where
  | protection
  | configuration
  | status
deriving DecidableEq, Repr

/-- The two registers instruction 0x01 may write (spec/30_encoding.md R71). -/
inductive WritableRegister where
  | protection
  | configuration
deriving DecidableEq, Repr

/-- `ReadMethod` (spec/30_encoding.md R88). -/
inductive ReadMethod where
  | fastRead
  | fastReadDualOutput
  | fastReadQuadOutput
  | fastReadDualIO
  | fastReadQuadIO
deriving DecidableEq, Repr

/-- `WriteMethod` (spec/30_encoding.md R87). -/
inductive WriteMethod where
  | single
  | quad
deriving DecidableEq, Repr

/-- One constructor per row of spec/opcode_table.json: first the 21 requests of the request port (spec/30_encoding.md
R94), then the 19 bus commands of the transport port (R68 to R86). -/
inductive Instr where
  -- requests
  | create
  | release
  | resetDevice
  | getJedecId
  | checkBusy
  | waitWhileBusy
  | readStatusRegister
  | readProtectionRegister
  | readConfigurationRegister
  | writeProtectionRegister (p : ProtectionRegister)
  | writeConfigurationRegister (c : ConfigurationRegister)
  | setWriteProtection (p : ProtectionRegister)
  | setContinuousReadMode (cont : Bool)
  | readMemoryToDataBuffer (pa : Word)
  | readDataBuffer (method : ReadMethod) (ca : Word) (n : Nat)
  | readBbmLookupTable
  | enableWrite
  | disableWrite
  | erase128kbBlock (pa : Word)
  | loadToDataBuffer (method : WriteMethod) (clear : Bool) (ca : Word) (data : List Byte)
  | writeDataBufferToMemory (pa : Word)
  -- bus commands
  | cmdDeviceReset
  | cmdJedecId
  | cmdReadRegister (reg : ChipRegister)
  | cmdWriteRegister (reg : WritableRegister) (value : Byte)
  | cmdWriteEnable
  | cmdWriteDisable
  | cmdBlockErase (ea : Word)
  | cmdPageDataRead (pa : Word)
  | cmdProgramExecute (pa : Word)
  | cmdLoadClearSingle (ca : Word) (data : List Byte)
  | cmdLoadRandomSingle (ca : Word) (data : List Byte)
  | cmdLoadClearQuad (ca : Word) (data : List Byte)
  | cmdLoadRandomQuad (ca : Word) (data : List Byte)
  | cmdReadBbmLut
  | cmdFastRead (ca : Word) (n : Nat)
  | cmdFastReadDualOutput (ca : Word) (n : Nat)
  | cmdFastReadQuadOutput (ca : Word) (n : Nat)
  | cmdFastReadDualIO (ca : Word) (n : Nat)
  | cmdFastReadQuadIO (ca : Word) (n : Nat)
deriving DecidableEq, Repr

/-- The source's shorthand operations, expanded before they reach the request port (spec/30_encoding.md R95). -/
inductive PseudoOp where
  | singleLoadToDataBuffer (clear : Bool) (ca : Word) (data : List Byte)
  | quadLoadToDataBuffer (clear : Bool) (ca : Word) (data : List Byte)
  | singleReadDataBuffer (ca : Word) (n : Nat)
  | quadReadDataBuffer (ca : Word) (n : Nat)
deriving DecidableEq, Repr

/-- The number of data lines of a phase: 1, 2 or 4 (spec/30_encoding.md R65). -/
inductive Lines where
  | one
  | two
  | four
deriving DecidableEq, Repr

/-- The address phase of a descriptor: a value sent as `size` bytes on `lines` lines (R65). -/
structure AddrPhase where
  value : Word
  size : Nat
  lines : Lines
deriving DecidableEq, Repr

/-- The alternate-bytes phase of a descriptor (R65), which no descriptor of this block has (R97). -/
structure AltPhase where
  bytes : List Byte
  lines : Lines
deriving DecidableEq, Repr

/-- A command descriptor (spec/30_encoding.md R65). -/
structure Desc where
  instr : Byte
  instrLines : Lines
  addr : Option AddrPhase
  alt : Option AltPhase
  dummy : Nat
  data : Option Lines
deriving DecidableEq, Repr

/-- A use of one of the two transport primitives (spec/00_scope.md R15). -/
inductive Call where
  | write (d : Desc) (payload : List Byte)
  | transfer (d : Desc) (n : Nat)
deriving DecidableEq, Repr

/-- Why the block does not accept a request (spec/60_exceptions.md R144). -/
inductive RefusalReason where
  | notAttached
  | alreadyAttached
  | unknownOperation
  | badOperand
  | wrongMode
deriving DecidableEq, Repr

end Sys2Proof
end

