-- ==== Sys2Proof/Machine/Flags.lean ====
section
/-! DEFINITION. The register codec (spec/40_register_model.md section 1): the fields of the status, protection and
configuration bytes, under any layout. The default bit positions are PRESUMED (log entry 5) and stand in one table, `regLayout`. -/

namespace Sys2Proof.Machine

/-- `REG_LAYOUT` at its default (spec/10_state.md R33, R35, R36). -/
def regLayout : RegLayout :=
  { status :=
      { deviceBusy := 0, writeEnableLatch := 1, eraseFailure := 2, writeFailure := 3, ecc0 := 4, ecc1 := 5
        bbmLutFull := 6 }
    protection := { srp0 := 7, bp3 := 6, bp2 := 5, bp1 := 4, bp0 := 3, tb := 2, wpe := 1, srp1 := 0 }
    configuration := { otpL := 7, otpE := 6, sr1L := 5, eccE := 4, buf := 3 } }

/-- `b[i]` (spec/00_scope.md R13). -/
def bitOf (b : Byte) (i : Fin 8) : Bool := b.getLsbD i.val

/-- A one-bit field placed at bit `i`: `v << i`. -/
def bitAt (v : Bool) (i : Fin 8) : Byte := (BitVec.zeroExtend 8 (BitVec.ofBool v)) <<< i.val

/-- `ecc_decode` (R100): the pair is `(ecc0, ecc1)`. -/
def eccDecode (ecc0 ecc1 : Bool) : EccStatus :=
  match ecc0, ecc1 with
  | false, false => .successful
  | true, false => .correctedSuccessfully
  | false, true => .singlePageError
  | true, true => .multiPageError

/-- The pair `(ecc0, ecc1)` that decodes to an outcome (R100, read backwards); only the reference device needs it. -/
def eccBits : EccStatus → Bool × Bool
  | .successful => (false, false)
  | .correctedSuccessfully => (true, false)
  | .singlePageError => (false, true)
  | .multiPageError => (true, true)

/-- `decode_status` (R101); bits that hold no field are ignored (spec/10_state.md R38). -/
def decodeStatus (l : StatusLayout) (b : Byte) : StatusRegister :=
  { deviceBusy := bitOf b l.deviceBusy
    writeEnableLatch := bitOf b l.writeEnableLatch
    eraseFailure := bitOf b l.eraseFailure
    writeFailure := bitOf b l.writeFailure
    eccStatus := eccDecode (bitOf b l.ecc0) (bitOf b l.ecc1)
    bbmLutFull := bitOf b l.bbmLutFull }

/-- `encode_prot` (R102). -/
def encodeProtection (l : ProtectionLayout) (p : ProtectionRegister) : Byte :=
  bitAt p.srp0 l.srp0 ||| bitAt p.bp3 l.bp3 ||| bitAt p.bp2 l.bp2 ||| bitAt p.bp1 l.bp1 ||| bitAt p.bp0 l.bp0 |||
    bitAt p.tb l.tb ||| bitAt p.wpe l.wpe ||| bitAt p.srp1 l.srp1

/-- `decode_prot` (R103). -/
def decodeProtection (l : ProtectionLayout) (b : Byte) : ProtectionRegister :=
  { srp0 := bitOf b l.srp0, bp3 := bitOf b l.bp3, bp2 := bitOf b l.bp2, bp1 := bitOf b l.bp1, bp0 := bitOf b l.bp0
    tb := bitOf b l.tb, wpe := bitOf b l.wpe, srp1 := bitOf b l.srp1 }

/-- `encode_conf` (R104); a bit that holds no field is 0. -/
def encodeConfiguration (l : ConfigurationLayout) (c : ConfigurationRegister) : Byte :=
  bitAt c.otpL l.otpL ||| bitAt c.otpE l.otpE ||| bitAt c.sr1L l.sr1L ||| bitAt c.eccE l.eccE ||| bitAt c.buf l.buf

/-- `decode_conf` (R105); a bit that holds no field is ignored. -/
def decodeConfiguration (l : ConfigurationLayout) (b : Byte) : ConfigurationRegister :=
  { otpL := bitOf b l.otpL, otpE := bitOf b l.otpE, sr1L := bitOf b l.sr1L, eccE := bitOf b l.eccE
    buf := bitOf b l.buf }

/-- The busy test, the one the preflight, `check_busy` and `wait_while_busy` share
(spec/41_mode_state_machine.md R117, R124). -/
def isBusy (l : StatusLayout) (status : Byte) : Bool := (decodeStatus l status).deviceBusy

/-- The failure test of the post-check of block erase: `erase_failure` alone (spec/43_write_mode_ops.md R134). -/
def eraseFailed (l : StatusLayout) (status : Byte) : Bool := (decodeStatus l status).eraseFailure

/-- The failure test of the post-check of program execute: either failure bit (spec/43_write_mode_ops.md R136). -/
def programFailed (l : StatusLayout) (status : Byte) : Bool :=
  (decodeStatus l status).eraseFailure || (decodeStatus l status).writeFailure

end Sys2Proof.Machine
end

