-- ==== Sys2Proof/Machine/Operands.lean ====
section
/-! DEFINITION. The operand forms: byte order, register sub-addresses, method codes, the erase address, and the transport
call of each of the 19 bus commands (spec/30_encoding.md R68 to R86). -/

namespace Sys2Proof.Machine

/-- `v[15:8]` (spec/00_scope.md R13). -/
def highByte (v : Word) : Byte := v.extractLsb' 8 8

/-- `v[7:0]` (spec/00_scope.md R13). -/
def lowByte (v : Word) : Byte := v.extractLsb' 0 8

/-- Two bytes of a frame or of a LUT slot, most-significant byte first (spec/30_encoding.md R94, spec/44_bbm_lut.md
R138). -/
def wordOf (hi lo : Byte) : Word := (hi.zeroExtend 16 <<< 8) ||| lo.zeroExtend 16

/-- The two bytes of a 16-bit value, most-significant byte first (spec/20_memory.md R46, R47, log entry 6). -/
def wordBytes (v : Word) : List Byte := [highByte v, lowByte v]

/-- The number a line count stands for. -/
def lineCount : Lines → Nat
  | .one => 1
  | .two => 2
  | .four => 4

/-- The register sub-addresses `PROT`, `CONF` and `STAT` (spec/30_encoding.md R92). -/
def subAddress : ChipRegister → Byte
  | .protection => 0xA0
  | .configuration => 0xB0
  | .status => 0xC0

/-- The register at a sub-address; there are three (spec/20_memory.md R43). -/
def registerAt (sub : Byte) : Option ChipRegister :=
  if sub = 0xA0 then some .protection
  else if sub = 0xB0 then some .configuration
  else if sub = 0xC0 then some .status
  else none

/-- A writable register as one of the three. -/
def chipRegisterOf : WritableRegister → ChipRegister
  | .protection => .protection
  | .configuration => .configuration

/-- The register a payload of instruction 0x01 names: 0xA0 or 0xB0, never 0xC0 (spec/30_encoding.md R97). -/
def writableAt (sub : Byte) : Option WritableRegister :=
  if sub = 0xA0 then some .protection
  else if sub = 0xB0 then some .configuration
  else none

/-- The request code of a read method (spec/30_encoding.md R88). -/
def readMethodCode : ReadMethod → Byte
  | .fastRead => 0
  | .fastReadDualOutput => 1
  | .fastReadQuadOutput => 2
  | .fastReadDualIO => 3
  | .fastReadQuadIO => 4

/-- The read method with a request code; codes above 4 are outside the enumeration (R96). -/
def readMethodOf (b : Byte) : Option ReadMethod :=
  match b.toNat with
  | 0 => some .fastRead
  | 1 => some .fastReadDualOutput
  | 2 => some .fastReadQuadOutput
  | 3 => some .fastReadDualIO
  | 4 => some .fastReadQuadIO
  | _ => none

/-- The request code of a write method (spec/30_encoding.md R87). -/
def writeMethodCode : WriteMethod → Byte
  | .single => 0
  | .quad => 1

/-- The write method with a request code; codes above 1 are outside the enumeration (R96). -/
def writeMethodOf (b : Byte) : Option WriteMethod :=
  match b.toNat with
  | 0 => some .single
  | 1 => some .quad
  | _ => none

/-- The byte of a Bool operand. -/
def boolCode (v : Bool) : Byte := if v then 1 else 0

/-- The Bool a byte stands for: 0 or 1, no other byte (R96). -/
def boolOf (b : Byte) : Option Bool :=
  match b.toNat with
  | 0 => some false
  | 1 => some true
  | _ => none

/-- The erase address `ea` (spec/30_encoding.md R91). -/
def eraseAddress (form : EraseAddressForm) (pa : Word) : Word :=
  match form with
  | .pageAsGiven => pa
  | .blockAligned => pa &&& 0xFFC0

/-- A page address as an address phase: 2 bytes on 1 line (spec/30_encoding.md R89). -/
def pagePhase (pa : Word) : AddrPhase := { value := pa, size := 2, lines := .one }

/-- A column address as an address phase: 2 bytes on the method's lines (spec/30_encoding.md R90). -/
def columnPhase (ca : Word) (l : Lines) : AddrPhase := { value := ca, size := 2, lines := l }

/-- A register sub-address as an address phase: 1 byte on 1 line (spec/30_encoding.md R70). -/
def subPhase (sub : Byte) : AddrPhase := { value := sub.zeroExtend 16, size := 1, lines := .one }

/-- The bytes an address phase sends, most-significant first (spec/20_memory.md R46, R47): the value's low `size`
bytes, `size` being 1 or 2 (spec/30_encoding.md R66). -/
def addrBytes (a : AddrPhase) : List Byte :=
  if a.size = 1 then [lowByte a.value] else wordBytes a.value

/-- A descriptor of this block: instruction byte on 1 line, no alternate bytes (R66, R97). -/
def descOf (instr : Byte) (addr : Option AddrPhase) (dummy : Nat) (data : Option Lines) : Desc :=
  { instr := instr, instrLines := .one, addr := addr, alt := none, dummy := dummy, data := data }

/-- R68, device reset. -/
def callDeviceReset : Call := .write (descOf 0xFF none 0 none) []

/-- R69, JEDEC ID read. -/
def callJedecId : Call := .transfer (descOf 0x9F none 8 (some .one)) 3

/-- R70, read status register: the sub-address selects the register. -/
def callReadRegister (r : ChipRegister) : Call :=
  .transfer (descOf 0x05 (some (subPhase (subAddress r))) 0 (some .one)) 1

/-- R71, write status register: the payload is the sub-address and the value. -/
def callWriteRegister (r : WritableRegister) (value : Byte) : Call :=
  .write (descOf 0x01 none 0 (some .one)) [subAddress (chipRegisterOf r), value]

/-- R72, write enable. -/
def callWriteEnable : Call := .write (descOf 0x06 none 0 none) []

/-- R73, write disable. -/
def callWriteDisable : Call := .write (descOf 0x04 none 0 none) []

/-- R74, block erase. -/
def callBlockErase (ea : Word) : Call := .write (descOf 0xD8 (some (pagePhase ea)) 8 none) []

/-- R75, page data read. -/
def callPageDataRead (pa : Word) : Call := .write (descOf 0x13 (some (pagePhase pa)) 8 none) []

/-- R76, program execute. -/
def callProgramExecute (pa : Word) : Call := .write (descOf 0x10 (some (pagePhase pa)) 8 none) []

/-- R77, page load with clear, single line. -/
def callLoadClearSingle (ca : Word) (data : List Byte) : Call :=
  .write (descOf 0x02 (some (columnPhase ca .one)) 0 (some .one)) data

/-- R78, random page load, single line. -/
def callLoadRandomSingle (ca : Word) (data : List Byte) : Call :=
  .write (descOf 0x84 (some (columnPhase ca .one)) 0 (some .one)) data

/-- R79, page load with clear, quad. -/
def callLoadClearQuad (ca : Word) (data : List Byte) : Call :=
  .write (descOf 0x32 (some (columnPhase ca .one)) 0 (some .four)) data

/-- R80, random page load, quad. -/
def callLoadRandomQuad (ca : Word) (data : List Byte) : Call :=
  .write (descOf 0x34 (some (columnPhase ca .one)) 0 (some .four)) data

/-- R81, read bad-block table. -/
def callReadBbmLut : Call := .transfer (descOf 0xA5 none 8 (some .one)) 80

/-- R82, fast read. -/
def callFastRead (ca : Word) (n : Nat) : Call :=
  .transfer (descOf 0x0B (some (columnPhase ca .one)) 8 (some .one)) n

/-- R83, fast read dual output. -/
def callFastReadDualOutput (ca : Word) (n : Nat) : Call :=
  .transfer (descOf 0x3B (some (columnPhase ca .one)) 8 (some .two)) n

/-- R84, fast read quad output. -/
def callFastReadQuadOutput (ca : Word) (n : Nat) : Call :=
  .transfer (descOf 0x6B (some (columnPhase ca .one)) 8 (some .four)) n

/-- R85, fast read dual I/O. -/
def callFastReadDualIO (ca : Word) (n : Nat) : Call :=
  .transfer (descOf 0xBB (some (columnPhase ca .two)) 4 (some .two)) n

/-- R86, fast read quad I/O. -/
def callFastReadQuadIO (ca : Word) (n : Nat) : Call :=
  .transfer (descOf 0xEB (some (columnPhase ca .four)) 4 (some .four)) n

/-- The load command that `(method, clear)` selects (spec/30_encoding.md R87). -/
def callLoad (method : WriteMethod) (clear : Bool) (ca : Word) (data : List Byte) : Call :=
  match method, clear with
  | .single, true => callLoadClearSingle ca data
  | .single, false => callLoadRandomSingle ca data
  | .quad, true => callLoadClearQuad ca data
  | .quad, false => callLoadRandomQuad ca data

/-- The fast-read command of a read method (spec/30_encoding.md R88). -/
def callRead (method : ReadMethod) (ca : Word) (n : Nat) : Call :=
  match method with
  | .fastRead => callFastRead ca n
  | .fastReadDualOutput => callFastReadDualOutput ca n
  | .fastReadQuadOutput => callFastReadQuadOutput ca n
  | .fastReadDualIO => callFastReadDualIO ca n
  | .fastReadQuadIO => callFastReadQuadIO ca n

/-- The read method `QUAD_READ_METHOD` names (spec/30_encoding.md R95). -/
def quadReadMethod (c : Config) : ReadMethod :=
  match c.quadReadMethod with
  | .fastReadQuadOutput => .fastReadQuadOutput
  | .fastReadQuadIO => .fastReadQuadIO

/-- What a pseudo-operation stands for on the request port (spec/30_encoding.md R95). -/
def expandPseudo (c : Config) : PseudoOp → Instr
  | .singleLoadToDataBuffer clear ca data => .loadToDataBuffer .single clear ca data
  | .quadLoadToDataBuffer clear ca data => .loadToDataBuffer .quad clear ca data
  | .singleReadDataBuffer ca n => .readDataBuffer .fastRead ca n
  | .quadReadDataBuffer ca n => .readDataBuffer (quadReadMethod c) ca n

/-! The informative serialization of spec/30_encoding.md R67. No meaning reads it. -/

/-- A phase on the wire: bytes out on some lines, dummy clocks, or bytes in. -/
inductive WirePhase where
  | out (bytes : List Byte) (lines : Lines)
  | dummyClocks (n : Nat)
  | receive (n : Nat) (lines : Lines)
deriving DecidableEq, Repr

/-- The clocks a phase takes: a byte is 8 bits and each clock carries one bit per line (R67). -/
def phaseClocks : WirePhase → Nat
  | .out bytes l => 8 * bytes.length / lineCount l
  | .dummyClocks n => n
  | .receive n l => 8 * n / lineCount l

/-- The phases before the data phase, in the order instruction, address, alternate, dummy (R67). -/
def headPhases (d : Desc) : List WirePhase :=
  .out [d.instr] d.instrLines ::
    ((match d.addr with | some a => [WirePhase.out (addrBytes a) a.lines] | none => []) ++
      (match d.alt with | some a => [WirePhase.out a.bytes a.lines] | none => []) ++
      (if d.dummy = 0 then [] else [WirePhase.dummyClocks d.dummy]))

/-- The wire phases of a call; none where dummy clocks and an address stand without a data phase, whose wire order the
spec leaves open (spec/93_implementation_defined.md I9, log entry 16). -/
def wirePhases : Call → Option (List WirePhase)
  | .write d payload =>
    match d.data with
    | some l => some (headPhases d ++ [.out payload l])
    | none => if d.dummy = 0 then some (headPhases d) else none
  | .transfer d n =>
    match d.data with
    | some l => some (headPhases d ++ [.receive n l])
    | none => none

end Sys2Proof.Machine
end

