-- ==== Sys2Proof/WellFormed.lean ====
section
/-! DEFINITION. Which terms of Instr have an encoding the spec admits. -/

namespace Sys2Proof

/-- A length the two-byte length operand of a request frame can carry, and not the 0 that is always refused
(spec/20_memory.md R50, spec/30_encoding.md R94). -/
def frameLengthWf (n : Nat) : Bool := decide (1 ≤ n) && decide (n < 65536)

/-- The data phase of a load or fast-read command has at least one byte (spec/20_memory.md R50). Its upper bound
`MAX_XFER` is a parameter of the machine, not of the syntax. -/
def dataPhaseWf (n : Nat) : Bool := decide (1 ≤ n)

/-- The checks on operands that the types of Instr do not make. -/
def Instr.wf : Instr → Bool
  | .create | .release | .resetDevice | .getJedecId | .checkBusy | .waitWhileBusy => true
  | .readStatusRegister | .readProtectionRegister | .readConfigurationRegister => true
  | .writeProtectionRegister _ | .writeConfigurationRegister _ | .setWriteProtection _ => true
  | .setContinuousReadMode _ | .readMemoryToDataBuffer _ => true
  | .readDataBuffer _ _ n => frameLengthWf n
  | .readBbmLookupTable | .enableWrite | .disableWrite | .erase128kbBlock _ => true
  | .loadToDataBuffer _ _ _ data => frameLengthWf data.length
  | .writeDataBufferToMemory _ => true
  | .cmdDeviceReset | .cmdJedecId | .cmdReadRegister _ | .cmdWriteRegister _ _ => true
  | .cmdWriteEnable | .cmdWriteDisable | .cmdBlockErase _ | .cmdPageDataRead _ | .cmdProgramExecute _ => true
  | .cmdLoadClearSingle _ data => dataPhaseWf data.length
  | .cmdLoadRandomSingle _ data => dataPhaseWf data.length
  | .cmdLoadClearQuad _ data => dataPhaseWf data.length
  | .cmdLoadRandomQuad _ data => dataPhaseWf data.length
  | .cmdReadBbmLut => true
  | .cmdFastRead _ n => dataPhaseWf n
  | .cmdFastReadDualOutput _ n => dataPhaseWf n
  | .cmdFastReadQuadOutput _ n => dataPhaseWf n
  | .cmdFastReadDualIO _ n => dataPhaseWf n
  | .cmdFastReadQuadIO _ n => dataPhaseWf n

/-- The instruction is a request, taken in on the request port, not a bus command sent on the transport port. -/
def Instr.isRequest : Instr → Bool
  | .create | .release | .resetDevice | .getJedecId | .checkBusy | .waitWhileBusy => true
  | .readStatusRegister | .readProtectionRegister | .readConfigurationRegister => true
  | .writeProtectionRegister _ | .writeConfigurationRegister _ | .setWriteProtection _ => true
  | .setContinuousReadMode _ | .readMemoryToDataBuffer _ | .readDataBuffer _ _ _ => true
  | .readBbmLookupTable | .enableWrite | .disableWrite | .erase128kbBlock _ => true
  | .loadToDataBuffer _ _ _ _ | .writeDataBufferToMemory _ => true
  | .cmdDeviceReset | .cmdJedecId | .cmdReadRegister _ | .cmdWriteRegister _ _ => false
  | .cmdWriteEnable | .cmdWriteDisable | .cmdBlockErase _ | .cmdPageDataRead _ | .cmdProgramExecute _ => false
  | .cmdLoadClearSingle _ _ | .cmdLoadRandomSingle _ _ | .cmdLoadClearQuad _ _ | .cmdLoadRandomQuad _ _ => false
  | .cmdReadBbmLut | .cmdFastRead _ _ | .cmdFastReadDualOutput _ _ | .cmdFastReadQuadOutput _ _ => false
  | .cmdFastReadDualIO _ _ | .cmdFastReadQuadIO _ _ => false

end Sys2Proof
end

