-- ==== Sys2Proof/Decode.lean ====
section
/-! DEFINITION. The two decoders, of request frames and of transport calls, and after them the encoders, from the encoding
tables of spec/30_encoding.md; then the words of spec/opcode_table.json read as the host numbers them. -/

namespace Sys2Proof

open Sys2Proof.Machine

/-- An encoded instruction: a request as its frame (spec/30_encoding.md R94), a bus command as the transport call that
carries it (R68 to R86). -/
inductive Encoding where
  | frame (bytes : List Byte)
  | call (c : Call)
deriving DecidableEq, Repr

/-- What a decoder reads. -/
inductive Decoded where
  /-- The instruction, and the bytes of the frame after its operands. -/
  | instr (i : Instr) (rest : List Byte)
  /-- The frame is refused for this reason (R96). -/
  | refused (r : RefusalReason)
  /-- The call is none that this block builds (R97). -/
  | neverBuilt
deriving DecidableEq, Repr

/-- A two-byte operand, most-significant byte first. -/
def decodeWordOperand (f : Word → Instr) : List Byte → Decoded
  | hi :: lo :: rest => .instr (f (wordOf hi lo)) rest
  | _ => .refused .badOperand

/-- A one-byte register-value operand. -/
def decodeByteOperand (f : Byte → Instr) : List Byte → Decoded
  | b :: rest => .instr (f b) rest
  | _ => .refused .badOperand

/-- The operand of `set_continuous_read_mode`: a byte 0 or 1. -/
def decodeContinuous : List Byte → Decoded
  | b :: rest =>
    match boolOf b with
    | some v => .instr (.setContinuousReadMode v) rest
    | none => .refused .badOperand
  | _ => .refused .badOperand

/-- The operands of `read_data_buffer`: method, column, length. -/
def decodeReadDataBuffer : List Byte → Decoded
  | m :: c1 :: c0 :: n1 :: n0 :: rest =>
    match readMethodOf m with
    | some method => .instr (.readDataBuffer method (wordOf c1 c0) (wordOf n1 n0).toNat) rest
    | none => .refused .badOperand
  | _ => .refused .badOperand

/-- The operands of `load_to_data_buffer`: method, clear, column, count `k`, then `k` data bytes. -/
def decodeLoad : List Byte → Decoded
  | m :: cl :: c1 :: c0 :: k1 :: k0 :: rest =>
    match writeMethodOf m, boolOf cl with
    | some method, some clear =>
      let k := (wordOf k1 k0).toNat
      if rest.length < k then .refused .badOperand
      else .instr (.loadToDataBuffer method clear (wordOf c1 c0) (rest.take k)) (rest.drop k)
    | _, _ => .refused .badOperand
  | _ => .refused .badOperand

/-- The request a frame carries (R94), or why it is refused (R96); `l` is the layout of the register values in it. A frame longer than its operands is read and the
surplus handed back (log entry 7); an empty frame is a frame too short (log entry 8); the reserved bits of a configuration
operand are dropped (log entry 9). -/
def decodeRequest (l : RegLayout) : List Byte → Decoded
  | [] => .refused .badOperand
  | code :: ops =>
    match code.toNat with
    | 0x00 => .instr .create ops
    | 0x01 => .instr .release ops
    | 0x02 => .instr .resetDevice ops
    | 0x03 => .instr .getJedecId ops
    | 0x04 => .instr .checkBusy ops
    | 0x05 => .instr .waitWhileBusy ops
    | 0x06 => .instr .readStatusRegister ops
    | 0x07 => .instr .readProtectionRegister ops
    | 0x08 => .instr .readConfigurationRegister ops
    | 0x09 => decodeByteOperand (fun b => .writeProtectionRegister (decodeProtection l.protection b)) ops
    | 0x0A => decodeByteOperand (fun b => .writeConfigurationRegister (decodeConfiguration l.configuration b)) ops
    | 0x0B => decodeByteOperand (fun b => .setWriteProtection (decodeProtection l.protection b)) ops
    | 0x0C => decodeContinuous ops
    | 0x0D => decodeWordOperand .readMemoryToDataBuffer ops
    | 0x0E => decodeReadDataBuffer ops
    | 0x0F => .instr .readBbmLookupTable ops
    | 0x10 => .instr .enableWrite ops
    | 0x11 => .instr .disableWrite ops
    | 0x12 => decodeWordOperand .erase128kbBlock ops
    | 0x13 => decodeLoad ops
    | 0x14 => decodeWordOperand .writeDataBufferToMemory ops
    | _ => .refused .unknownOperation

/-- The instruction, if the call `c` is the one its rule builds. -/
def ifBuilt (c expected : Call) (i : Instr) : Option Instr := if c = expected then some i else none

/-- The address value of a descriptor that has an address phase. -/
def addrValue (d : Desc) : Word :=
  match d.addr with
  | some a => a.value
  | none => 0

/-- The bus command of a `Write` call: the instruction byte selects it, and every other field is as its rule says. -/
def decodeWriteCall (d : Desc) (p : List Byte) : Option Instr :=
  let c := Call.write d p
  let a := addrValue d
  match d.instr.toNat with
  | 0xFF => ifBuilt c callDeviceReset .cmdDeviceReset
  | 0x01 =>
    match p with
    | [sub, v] =>
      match writableAt sub with
      | some r => ifBuilt c (callWriteRegister r v) (.cmdWriteRegister r v)
      | none => none
    | _ => none
  | 0x06 => ifBuilt c callWriteEnable .cmdWriteEnable
  | 0x04 => ifBuilt c callWriteDisable .cmdWriteDisable
  | 0xD8 => ifBuilt c (callBlockErase a) (.cmdBlockErase a)
  | 0x13 => ifBuilt c (callPageDataRead a) (.cmdPageDataRead a)
  | 0x10 => ifBuilt c (callProgramExecute a) (.cmdProgramExecute a)
  | 0x02 => ifBuilt c (callLoadClearSingle a p) (.cmdLoadClearSingle a p)
  | 0x84 => ifBuilt c (callLoadRandomSingle a p) (.cmdLoadRandomSingle a p)
  | 0x32 => ifBuilt c (callLoadClearQuad a p) (.cmdLoadClearQuad a p)
  | 0x34 => ifBuilt c (callLoadRandomQuad a p) (.cmdLoadRandomQuad a p)
  | _ => none

/-- The bus command of a `Transfer` call. -/
def decodeTransferCall (d : Desc) (n : Nat) : Option Instr :=
  let c := Call.transfer d n
  let a := addrValue d
  match d.instr.toNat with
  | 0x9F => ifBuilt c callJedecId .cmdJedecId
  | 0x05 =>
    match registerAt (lowByte a) with
    | some r => ifBuilt c (callReadRegister r) (.cmdReadRegister r)
    | none => none
  | 0xA5 => ifBuilt c callReadBbmLut .cmdReadBbmLut
  | 0x0B => ifBuilt c (callFastRead a n) (.cmdFastRead a n)
  | 0x3B => ifBuilt c (callFastReadDualOutput a n) (.cmdFastReadDualOutput a n)
  | 0x6B => ifBuilt c (callFastReadQuadOutput a n) (.cmdFastReadQuadOutput a n)
  | 0xBB => ifBuilt c (callFastReadDualIO a n) (.cmdFastReadDualIO a n)
  | 0xEB => ifBuilt c (callFastReadQuadIO a n) (.cmdFastReadQuadIO a n)
  | _ => none

/-- The bus command a transport call carries; none for a call this block never builds (R97). -/
def decodeCall : Call → Option Instr
  | .write d p => decodeWriteCall d p
  | .transfer d n => decodeTransferCall d n

/-- The decoder: a frame at the request port, a call at the transport port. -/
def decode (l : RegLayout) : Encoding → Decoded
  | .frame bytes => decodeRequest l bytes
  | .call c =>
    match decodeCall c with
    | some i => .instr i []
    | none => .neverBuilt

/-! The encoders. -/

/-- The request frame or the transport call of an instruction. -/
def encode (l : RegLayout) : Instr → Encoding
  | .create => .frame [0x00]
  | .release => .frame [0x01]
  | .resetDevice => .frame [0x02]
  | .getJedecId => .frame [0x03]
  | .checkBusy => .frame [0x04]
  | .waitWhileBusy => .frame [0x05]
  | .readStatusRegister => .frame [0x06]
  | .readProtectionRegister => .frame [0x07]
  | .readConfigurationRegister => .frame [0x08]
  | .writeProtectionRegister p => .frame [0x09, encodeProtection l.protection p]
  | .writeConfigurationRegister c => .frame [0x0A, encodeConfiguration l.configuration c]
  | .setWriteProtection p => .frame [0x0B, encodeProtection l.protection p]
  | .setContinuousReadMode v => .frame [0x0C, boolCode v]
  | .readMemoryToDataBuffer pa => .frame (0x0D :: wordBytes pa)
  | .readDataBuffer m ca n => .frame (0x0E :: readMethodCode m :: (wordBytes ca ++ wordBytes (BitVec.ofNat 16 n)))
  | .readBbmLookupTable => .frame [0x0F]
  | .enableWrite => .frame [0x10]
  | .disableWrite => .frame [0x11]
  | .erase128kbBlock pa => .frame (0x12 :: wordBytes pa)
  | .loadToDataBuffer m clear ca data =>
    .frame (0x13 :: writeMethodCode m :: boolCode clear ::
      (wordBytes ca ++ (wordBytes (BitVec.ofNat 16 data.length) ++ data)))
  | .writeDataBufferToMemory pa => .frame (0x14 :: wordBytes pa)
  | .cmdDeviceReset => .call callDeviceReset
  | .cmdJedecId => .call callJedecId
  | .cmdReadRegister r => .call (callReadRegister r)
  | .cmdWriteRegister r v => .call (callWriteRegister r v)
  | .cmdWriteEnable => .call callWriteEnable
  | .cmdWriteDisable => .call callWriteDisable
  | .cmdBlockErase ea => .call (callBlockErase ea)
  | .cmdPageDataRead pa => .call (callPageDataRead pa)
  | .cmdProgramExecute pa => .call (callProgramExecute pa)
  | .cmdLoadClearSingle ca data => .call (callLoadClearSingle ca data)
  | .cmdLoadRandomSingle ca data => .call (callLoadRandomSingle ca data)
  | .cmdLoadClearQuad ca data => .call (callLoadClearQuad ca data)
  | .cmdLoadRandomQuad ca data => .call (callLoadRandomQuad ca data)
  | .cmdReadBbmLut => .call callReadBbmLut
  | .cmdFastRead ca n => .call (callFastRead ca n)
  | .cmdFastReadDualOutput ca n => .call (callFastReadDualOutput ca n)
  | .cmdFastReadQuadOutput ca n => .call (callFastReadQuadOutput ca n)
  | .cmdFastReadDualIO ca n => .call (callFastReadDualIO ca n)
  | .cmdFastReadQuadIO ca n => .call (callFastReadQuadIO ca n)

/-- The first byte of an encoding: the request code of a frame, the instruction byte of a call. -/
def Encoding.codeByte : Encoding → Option Byte
  | .frame bytes => bytes.head?
  | .call (.write d _) => some d.instr
  | .call (.transfer d _) => some d.instr

/-! The words of spec/opcode_table.json. -/

/-- Byte `i` of a word numbered as the table numbers it: bits `8 i + 7` to `8 i`. -/
def tableByte (w i : Nat) : Byte := BitVec.ofNat 8 (w >>> (8 * i))

/-- The longest part of a request frame before its data bytes: the code and six operand bytes (R94). -/
def longestFrameHead : Nat := 7

/-- The table's word as a request frame, the bytes above the word 0. -/
def tableFrame (w : Nat) : List Byte := (List.range longestFrameHead).map (tableByte w)

/-- The table's word as a bus command: the low byte is the instruction byte, the operands the table gives no bits are
0. The length of a data phase is not in a command's bits (spec/30_encoding.md R98): it is the shortest legal one, one
byte (log entry 12). -/
def tableCall (w : Nat) : Option Call :=
  match (tableByte w 0).toNat with
  | 0xFF => some callDeviceReset
  | 0x9F => some callJedecId
  | 0x06 => some callWriteEnable
  | 0x04 => some callWriteDisable
  | 0xD8 => some (callBlockErase 0)
  | 0x13 => some (callPageDataRead 0)
  | 0x10 => some (callProgramExecute 0)
  | 0x02 => some (callLoadClearSingle 0 [0])
  | 0x84 => some (callLoadRandomSingle 0 [0])
  | 0x32 => some (callLoadClearQuad 0 [0])
  | 0x34 => some (callLoadRandomQuad 0 [0])
  | 0xA5 => some callReadBbmLut
  | 0x0B => some (callFastRead 0 1)
  | 0x3B => some (callFastReadDualOutput 0 1)
  | 0x6B => some (callFastReadQuadOutput 0 1)
  | 0xBB => some (callFastReadDualIO 0 1)
  | 0xEB => some (callFastReadQuadIO 0 1)
  | _ => none

/-- Which encoding a word of the table is. The table numbers two namespaces from the same bit 0, and eight first bytes
belong to a row of each (log entry 12). Only bus-command rows have bits above bit 7 there, so a longer word is a bus
command where its first byte is one; a one-byte word is a request where its byte is a request code. -/
def tableEncoding (nbits w : Nat) : Encoding :=
  let byte := (tableByte w 0).toNat
  if nbits ≤ 8 ∧ byte ≤ 0x14 then .frame (tableFrame w)
  else
    match tableCall w with
    | some c => .call c
    | none => .frame (tableFrame w)

/-- The instruction the decoder reads from a word of spec/opcode_table.json, numbered as the table numbers it, under the
default layout, which is that of the machine right after reset. -/
def decodeTableWord (nbits w : Nat) : Option Instr :=
  match decode regLayout (tableEncoding nbits w) with
  | .instr i _ => some i
  | .refused _ => none
  | .neverBuilt => none

end Sys2Proof
end

