-- ==== Sys2Proof/Machine/State.lean ====
section
/-! DEFINITION. The machine's state: the block's two registers, its three ports, the request in progress, and the
environment behind the transport port. -/

namespace Sys2Proof.Machine

/-- The lifecycle register (spec/10_state.md R23). -/
inductive Life where
  | detached
  | attached
deriving DecidableEq, Repr

/-- The values of the mode register (spec/10_state.md R24). -/
inductive Mode where
  | read
  | write
deriving DecidableEq, Repr

/-- Whether the block is idle, or has `wait_while_busy` in progress between two of its status reads
(spec/30_encoding.md R93, spec/41_mode_state_machine.md R125). -/
inductive Activity where
  | idle
  | waiting
deriving DecidableEq, Repr

/-- The error kinds of spec/60_exceptions.md R141. -/
inductive ErrorKind where
  | deviceBusy
  | transportBusy
  | transportAddress
  | transportUnknown
  | writeFailure
deriving DecidableEq, Repr

/-- The value of an `Ok` response (the response column of spec/30_encoding.md R94). -/
inductive Value where
  | unit
  | bool (b : Bool)
  | bytes (bs : List Byte)
  | status (r : StatusRegister)
  | protection (r : ProtectionRegister)
  | configuration (r : ConfigurationRegister)
  | lut (entries : List (Option (Word × Word)))
deriving DecidableEq, Repr

/-- What the response port returns for a request (spec/10_state.md R22). -/
inductive Response where
  | ok (v : Value)
  | err (e : ErrorKind)
  | refused (r : RefusalReason)
deriving DecidableEq, Repr

/-- What a transport primitive returns (spec/00_scope.md R15): for a `Write` the bytes are none. -/
inductive CallResult where
  | ok (bytes : List Byte)
  | err (t : TransportError)
deriving DecidableEq, Repr

/-- An entry of the transcript (spec/20_memory.md R54); the kind, the descriptor and the payload or length are the
call's. -/
structure Event where
  call : Call
  result : CallResult
deriving DecidableEq, Repr

/-- An answer the environment has ready for a transport call (spec/20_memory.md R59). -/
inductive Answer where
  | ok (bytes : List Byte)
  | err (t : TransportError)
deriving DecidableEq, Repr

/-- A memory of the reference device, in the canonical form of `Memory.wf` (Machine/Memory.lean): addresses strictly
rising, no entry that holds the erased value, which every unlisted address reads as. -/
abbrev Memory := List Host.Cell

/-- The reference device of spec/20_memory.md section 4: what the source says the chip does, for runners and tests
(R59). It is environment, not block. -/
structure Chip where
  /-- `ERASED_BYTE` (spec/92_eei_decisions.md D36). -/
  erased : Byte
  /-- The page array (R41): column `c` of page `p` at address `2112 p + c`. -/
  pages : Memory
  /-- The data buffer (R42), by column. -/
  buffer : Memory
  /-- The protection register's byte (R43). -/
  protection : Byte
  /-- The configuration register's byte (R43); its reserved bits read as last written, the MODEL'S CHOICE (log entry 13). -/
  configuration : Byte
  /-- The write-enable latch (R61). -/
  writeEnabled : Bool
  /-- How many more status reads report the chip busy (R60). -/
  busyReads : Nat
  /-- How long the coming long operations keep the chip busy, in status reads, the next one first; none when empty. -/
  delays : List Nat
  /-- The status bit `erase_failure`. -/
  eraseFailure : Bool
  /-- The status bit `write_failure`. -/
  writeFailure : Bool
  /-- The status bits `ecc0` and `ecc1` (R64). -/
  ecc0 : Bool
  /-- See `ecc0`. -/
  ecc1 : Bool
  /-- The ECC outcomes of the coming page data reads, the next one first (R64); successful when empty (log entry
  13). -/
  eccOutcomes : List EccStatus
  /-- The status bit `bbm_lut_full`. -/
  lutFull : Bool
  /-- What a status read returns in the bits that hold no field (spec/93_implementation_defined.md I8: any value; log entry 13); its other
  bits are never looked at. -/
  statusReserved : Byte
  /-- The raw bad-block table (R44). -/
  lut : List Byte
  /-- The identification bytes (R45). -/
  jedecId : List Byte
deriving DecidableEq, Repr

/-- The environment behind the transport port (spec/20_memory.md R58, R59): answers it has ready, after which its
choices are free, or the reference device. -/
inductive Env where
  | script (answers : List Answer)
  | device (chip : Chip)
deriving DecidableEq, Repr

/-- The machine's state. The block's own registers are `life` and `mode` (spec/10_state.md R21). -/
structure State where
  /-- The lifecycle register (R23). -/
  life : Life
  /-- The mode register (R24); none while it holds no value (R30, R133). -/
  mode : Option Mode
  /-- The request in progress across steps, if any (spec/30_encoding.md R93). -/
  activity : Activity
  /-- Request port (R22): the frames the caller has sent and the block has not yet accepted, oldest first. -/
  requests : List (List Byte)
  /-- Response port (R22): the responses returned so far, oldest first (log entry 14). -/
  responses : List Response
  /-- Transport master port (R22): every call made so far, oldest first (spec/20_memory.md R54). -/
  transcript : List Event
  /-- Transport master port: a bus command standing there on its own, none in a run of requests (log entry 11). -/
  framed : Option Call
  /-- The transport and the chip behind it (R39, R58). -/
  env : Env
  /-- The MODEL's own: how many transport calls were made, the number the free values of Config are applied to (log entry
  4). -/
  calls : Nat
  /-- The parameters of spec/00_scope.md R12; no step writes them. -/
  config : Config
deriving DecidableEq, Repr

/-- Why the machine stops with a fault. -/
inductive Fault where
  /-- A bus command stands at the transport port while the block holds no transport (spec/10_state.md R23). Raised by
  the CMD_ instructions alone; no request leads here. Safe: the spec gives such a command no effect. -/
  | noTransport
deriving DecidableEq, Repr

/-- Why the machine gives a step no meaning. -/
inductive Refusal where
  /-- An instruction that has no meaning yet; raised by an arm of exec. Safe. -/
  | notModelled (mnemonic : String)
  /-- A call stands at the transport port that this block never builds (spec/30_encoding.md R97); raised by step. Safe. -/
  | neverBuilt
  /-- The block refused the request, for the reason it answers with (spec/41_mode_state_machine.md R116,
  spec/90_conflicts.md C2, spec/60_exceptions.md R144); raised by step, never by exec. Safe: it errs toward unprovable. -/
  | request (reason : RefusalReason)
deriving DecidableEq, Repr

/-- The machine right after reset: the block's reset is its creation, which leaves `life = Attached` and `mode = Read`
(spec/10_state.md R30, spec/70_reset_and_hazards.md R153, R154); the parameters are those of log entry 3, `REG_LAYOUT` at
its default (log entry 5); the other fields are the model's own (log entry 1). -/
def State.reset : State :=
  { life := .attached
    mode := some .read
    activity := .idle
    requests := []
    responses := []
    transcript := []
    framed := none
    env := .script []
    calls := 0
    config := Config.atReset regLayout }

/-- The machine before creation: `life = Detached`, and `mode` holds no value (spec/10_state.md R30). -/
def State.beforeCreation : State := { State.reset with life := .detached, mode := none }

end Sys2Proof.Machine
end

