-- ==== Sys2Proof/Machine/Memory.lean ====
section
/-! DEFINITION. The memories of the reference device (spec/20_memory.md section 1), as lists of cells in canonical form.
`d` is the byte an unlisted address reads as, the device's erased value. -/

namespace Sys2Proof.Machine

/-- The canonical form. -/
abbrev Memory.wf (d : Byte) (m : Memory) : Prop :=
  m.Pairwise (fun p q => p.1 < q.1) ∧ ∀ c ∈ m, c.2 ≠ d

/-- The byte at an address. -/
def Memory.read (d : Byte) : Memory → Nat → Byte
  | [], _ => d
  | (a, b) :: m, x => if x = a then b else Memory.read d m x

/-- A byte stored at an address: storing the erased value unlists the address. -/
def Memory.write (d : Byte) : Memory → Nat → Byte → Memory
  | [], x, v => if v = d then [] else [(x, v)]
  | (a, b) :: m, x, v =>
    if x < a then (if v = d then (a, b) :: m else (x, v) :: (a, b) :: m)
    else if x = a then (if v = d then m else (x, v) :: m)
    else (a, b) :: Memory.write d m x v

/-- Bytes stored from an address on, the first at the lowest address (R48). -/
def Memory.writeBytes (d : Byte) : Memory → Nat → List Byte → Memory
  | m, _, [] => m
  | m, x, b :: bs => Memory.writeBytes d (Memory.write d m x b) (x + 1) bs

/-- The `n` bytes from an address on. -/
def Memory.readBytes (d : Byte) (m : Memory) : Nat → Nat → List Byte
  | _, 0 => []
  | x, n + 1 => Memory.read d m x :: Memory.readBytes d m (x + 1) n

/-- The memory with the addresses `lo` to `lo + n - 1` unlisted, that is erased. -/
def Memory.erase (m : Memory) (lo n : Nat) : Memory :=
  m.filter fun c => !(decide (lo ≤ c.1) && decide (c.1 < lo + n))

/-- The addresses `lo` to `lo + n - 1` of a memory, moved down to 0. -/
def Memory.slice (m : Memory) (lo n : Nat) : Memory :=
  (m.filter fun c => decide (lo ≤ c.1) && decide (c.1 < lo + n)).map fun c => (c.1 - lo, c.2)

/-- The memory `m` with its addresses `lo` to `lo + n - 1` replaced by the addresses 0 to `n - 1` of `src`. -/
def Memory.paste (m : Memory) (lo n : Nat) (src : Memory) : Memory :=
  (m.filter fun c => decide (c.1 < lo)) ++
    (((src.filter fun c => decide (c.1 < n)).map fun c => (c.1 + lo, c.2)) ++
      m.filter fun c => decide (lo + n ≤ c.1))

end Sys2Proof.Machine
end

