-- ==== Sys2Proof/Machine/Chip.lean ====
section
/-! DEFINITION. The reference device (spec/20_memory.md section 4): what the source says the chip does with a call. It is
environment; no rule of the block reads it. Where the spec says a model must assume nothing of the chip, the device
answers `none` and the environment is unconstrained from there on (log entry 13). -/

namespace Sys2Proof.Machine

/-- The byte with a 1 in each of some bits. -/
def bitMask (bits : List (Fin 8)) : Byte := bits.foldr (fun i m => bitAt true i ||| m) 0

/-- The status byte the device reports, laid out as the block decodes it. What a bit that holds no field shows (bit 7 of
the default layout) is the MODEL'S CHOICE (log entry 13): it is the device's own `statusReserved`, any value, the same in
every status read. -/
def statusByte (l : StatusLayout) (chip : Chip) : Byte :=
  bitAt (decide (0 < chip.busyReads)) l.deviceBusy ||| bitAt chip.writeEnabled l.writeEnableLatch |||
    bitAt chip.eraseFailure l.eraseFailure ||| bitAt chip.writeFailure l.writeFailure ||| bitAt chip.ecc0 l.ecc0 |||
    bitAt chip.ecc1 l.ecc1 ||| bitAt chip.lutFull l.bbmLutFull ||| (chip.statusReserved &&& ~~~bitMask l.bits)

/-- One status read nearer to the end of the operation in progress. -/
def chipTick (chip : Chip) : Chip := { chip with busyReads := chip.busyReads - 1 }

/-- The device starts a long operation (spec/70_reset_and_hazards.md R156). -/
def chipStart (chip : Chip) : Chip :=
  { chip with busyReads := chip.delays.headD 0, delays := chip.delays.tail }

/-- The address of a page's first byte in the page array (R41). Two points are the MODEL'S CHOICE (log entry 13): how many
pages the chip has is left to the chip (R53), and the device has one at every 16-bit page address; how a raw entry of the
bad-block table acts on a page access the spec does not say (R64), and the device addresses pages directly, the table unread. -/
def pageBase (pa : Word) : Nat := pageTotalSize * pa.toNat

/-- The first page of the block that contains a page (R41, R63). -/
def blockFirstPage (pa : Word) : Nat := pagesPerBlock * (pa.toNat / pagesPerBlock)

/-- The bytes a block of pages takes in the page array. -/
def blockTotalSize : Nat := pagesPerBlock * pageTotalSize

/-- Block erase: the block that contains the addressed page reads as the erased value (R63); the latch clears (R61). -/
def chipErase (ea : Word) (chip : Chip) : Chip :=
  chipStart
    { chip with
      pages := Memory.erase chip.pages (pageTotalSize * blockFirstPage ea) blockTotalSize
      writeEnabled := false
      eraseFailure := false }

/-- Program execute: the buffer is committed to the addressed page (R63); the latch clears (PRESUMED, R61). -/
def chipProgram (pa : Word) (chip : Chip) : Chip :=
  chipStart
    { chip with
      pages := Memory.paste chip.pages (pageBase pa) pageTotalSize chip.buffer
      writeEnabled := false
      writeFailure := false }

/-- The outcome of the next page data read's ECC, reported in the status bits `ecc0` and `ecc1` (R64). -/
def chipEcc (chip : Chip) : Chip :=
  let pair := eccBits (chip.eccOutcomes.headD .successful)
  { chip with ecc0 := pair.1, ecc1 := pair.2, eccOutcomes := chip.eccOutcomes.tail }

/-- Page data read: the addressed page is staged into the buffer (R63) and its ECC outcome reported (R64). -/
def chipStage (pa : Word) (chip : Chip) : Chip :=
  chipStart (chipEcc { chip with buffer := Memory.slice chip.pages (pageBase pa) pageTotalSize })

/-- A page load (R62): with clear, every byte of the buffer not written becomes the erased value; without, it stays. -/
def chipLoad (clear : Bool) (ca : Word) (data : List Byte) (chip : Chip) : Chip :=
  { chip with
    buffer := Memory.writeBytes chip.erased (if clear then [] else chip.buffer) ca.toNat data }

/-- A load the latch guards (R61): ignored while the latch is clear; beyond the buffer nothing may be assumed (R49). -/
def chipGuardedLoad (clear : Bool) (ca : Word) (data : List Byte) (chip : Chip) : Option (List Byte × Chip) :=
  if chip.writeEnabled = false then some ([], chip)
  else if ca.toNat + data.length ≤ pageTotalSize then some ([], chipLoad clear ca data chip)
  else none

/-- A fast read, which changes nothing of the device (R52). In buffered read mode it returns the buffer from a column on
(R63); in continuous read mode any bytes (spec/93_implementation_defined.md I15), so the device gives none of its own. Beyond
the buffer nothing may be assumed in either mode (R49, I5). -/
def chipFastRead (l : ConfigurationLayout) (ca : Word) (n : Nat) (chip : Chip) : Option (List Byte × Chip) :=
  if ca.toNat + n ≤ pageTotalSize then
    some
      (if (decodeConfiguration l chip.configuration).buf then Memory.readBytes chip.erased chip.buffer ca.toNat n else [],
        chip)
  else none

/-- What the device does with a bus command while it is not busy, its registers laid out as `l` says. A request is no command: it has no case here. -/
def chipPerform (l : RegLayout) (i : Instr) (chip : Chip) : Option (List Byte × Chip) :=
  match i with
  | .cmdDeviceReset => none
  | .cmdJedecId => some (chip.jedecId, chip)
  | .cmdReadRegister .status => some ([statusByte l.status chip], chipTick chip)
  | .cmdReadRegister .protection => some ([chip.protection], chip)
  | .cmdReadRegister .configuration => some ([chip.configuration], chip)
  | .cmdWriteRegister .protection v => some ([], { chip with protection := v })
  | .cmdWriteRegister .configuration v => some ([], { chip with configuration := v })
  | .cmdWriteEnable => some ([], { chip with writeEnabled := true })
  | .cmdWriteDisable => some ([], { chip with writeEnabled := false })
  | .cmdBlockErase ea => some ([], if chip.writeEnabled then chipErase ea chip else chip)
  | .cmdPageDataRead pa => some ([], chipStage pa chip)
  | .cmdProgramExecute pa => some ([], if chip.writeEnabled then chipProgram pa chip else chip)
  | .cmdLoadClearSingle ca data => chipGuardedLoad true ca data chip
  | .cmdLoadRandomSingle ca data => chipGuardedLoad false ca data chip
  | .cmdLoadClearQuad ca data => chipGuardedLoad true ca data chip
  | .cmdLoadRandomQuad ca data => chipGuardedLoad false ca data chip
  | .cmdReadBbmLut => some (chip.lut, chip)
  | .cmdFastRead ca n => chipFastRead l.configuration ca n chip
  | .cmdFastReadDualOutput ca n => chipFastRead l.configuration ca n chip
  | .cmdFastReadQuadOutput ca n => chipFastRead l.configuration ca n chip
  | .cmdFastReadDualIO ca n => chipFastRead l.configuration ca n chip
  | .cmdFastReadQuadIO ca n => chipFastRead l.configuration ca n chip
  | .create | .release | .resetDevice | .getJedecId | .checkBusy | .waitWhileBusy => none
  | .readStatusRegister | .readProtectionRegister | .readConfigurationRegister => none
  | .writeProtectionRegister _ | .writeConfigurationRegister _ | .setWriteProtection _ => none
  | .setContinuousReadMode _ | .readMemoryToDataBuffer _ | .readDataBuffer _ _ _ => none
  | .readBbmLookupTable | .enableWrite | .disableWrite | .erase128kbBlock _ => none
  | .loadToDataBuffer _ _ _ _ | .writeDataBufferToMemory _ => none

/-- The device's answer to a call, and the device after it. While busy it "silently ignores commands" but for a status
read (R60): the bytes a reader then gets are the transport's, so the device gives none. That a device reset (0xFF) sent while
busy is ignored like any other command, so that R60 goes before the "any value" of I7, is the MODEL'S CHOICE (log entry 13). -/
def chipAnswer (l : RegLayout) (c : Call) (chip : Chip) : Option (List Byte × Chip) :=
  match decodeCall c with
  | some (.cmdReadRegister .status) => chipPerform l (.cmdReadRegister .status) chip
  | some i => if 0 < chip.busyReads then some ([], chip) else chipPerform l i chip
  | none => none

/-- The device's memories are in canonical form. -/
def chipWf (chip : Chip) : Prop := Memory.wf chip.erased chip.pages ∧ Memory.wf chip.erased chip.buffer

end Sys2Proof.Machine
end

