-- ==== Sys2Proof/Machine/Ops.lean ====
section
/-! DEFINITION. The operations the meanings share: a transport call, the flow of an operation's pseudocode with its early
end at an error, the admission of a request and its refusal, the register helpers and the busy preflight. -/

namespace Sys2Proof.Machine

/-! The environment. -/

/-- Free bytes of call number `k`, from index `i` on (log entry 4). -/
def freeBytes (k : Nat) : Nat → Nat → List Byte
  | _, 0 => []
  | i, n + 1 => Config.freeByte k i :: freeBytes k (i + 1) n

/-- The `n` bytes received on call number `k` (R15: always `n`): those of the answer, and free bytes where it has
fewer. -/
def received (k n : Nat) (bs : List Byte) : List Byte :=
  bs.take n ++ freeBytes k (bs.take n).length (n - bs.length)

/-- The result of call number `k` when the environment completes it: a `Write` returns no bytes, a `Transfer` as many as
it asks for (spec/00_scope.md R15). -/
def completed (k : Nat) (c : Call) (bs : List Byte) : CallResult :=
  match c with
  | .write _ _ => .ok []
  | .transfer _ n => .ok (received k n bs)

/-- The result an answer gives. -/
def answered (k : Nat) (c : Call) : Answer → CallResult
  | .ok bs => completed k c bs
  | .err t => .err t

/-- The result of call number `k` when the environment's choice is free (spec/20_memory.md R59). -/
def freeResult (k : Nat) (c : Call) : CallResult :=
  match Config.freeFailure k with
  | some t => .err t
  | none => completed k c []

/-- What the environment answers to call number `k`, and the environment after it. -/
def envAnswer (l : RegLayout) (k : Nat) (c : Call) : Env → CallResult × Env
  | .script [] => (freeResult k c, .script [])
  | .script (a :: rest) => (answered k c a, .script rest)
  | .device chip =>
    match chipAnswer l c chip with
    | some (bs, chip') => (completed k c bs, .device chip')
    | none => (freeResult k c, .script [])

/-- One transport call (spec/00_scope.md R15): the environment answers it and the transcript records it
(spec/20_memory.md R54, R55). -/
def transport (c : Call) (s : State) : CallResult × State :=
  let answer := envAnswer s.config.regLayout s.calls c s.env
  (answer.1,
    { s with
      env := answer.2
      calls := s.calls + 1
      transcript := s.transcript ++ [{ call := c, result := answer.1 }] })

/-! Results and responses. -/

/-- The transport-error mapping (spec/60_exceptions.md R142). -/
def mapError : TransportError → ErrorKind
  | .busy => .transportBusy
  | .address => .transportAddress
  | .unknown => .transportUnknown

/-- The response code of a response (spec/60_exceptions.md R141, R144). -/
def responseCode : Response → Byte
  | .ok _ => 0x00
  | .err .deviceBusy => 0x01
  | .err .transportBusy => 0x02
  | .err .transportAddress => 0x03
  | .err .transportUnknown => 0x04
  | .err .writeFailure => 0x05
  | .refused .notAttached => 0x80
  | .refused .alreadyAttached => 0x81
  | .refused .unknownOperation => 0x82
  | .refused .badOperand => 0x83
  | .refused .wrongMode => 0x84

/-- The response port returns a response (spec/10_state.md R22). -/
def respond (r : Response) (s : State) : State := { s with responses := s.responses ++ [r] }

/-- `mode <- m` (spec/00_scope.md R16). -/
def setMode (m : Mode) (s : State) : State := { s with mode := some m }

/-- An operation under way (spec/00_scope.md R16): it has a value so far, or it has ended with an error. -/
inductive Flow (α : Type) where
  | done (v : α) (s : State)
  | raised (e : ErrorKind) (s : State)

/-- The next statement of the pseudocode; after `raise` there is none ("the operation ends at once", R16). -/
def andThen {α β : Type} (p : Flow α) (f : α → State → Flow β) : Flow β :=
  match p with
  | .done v s => f v s
  | .raised e s => .raised e s

/-- The end of an operation. TAKING AN ERROR is this: the kind is returned on the response port and nothing else is
saved, changed or jumped to (spec/60_exceptions.md R140, R147). -/
def finish (p : Flow Value) : State :=
  match p with
  | .done v s => respond (.ok v) s
  | .raised e s => respond (.err e) s

/-- A transport call within an operation: a failure is raised at once, mapped 1:1 (spec/60_exceptions.md R142, R143). -/
def issue (c : Call) (s : State) : Flow (List Byte) :=
  match transport c s with
  | (.ok bs, s') => .done bs s'
  | (.err t, s') => .raised (mapError t) s'

/-- A transport call whose bytes are not used. -/
def issueWrite (c : Call) (s : State) : Flow Unit := andThen (issue c s) fun _ s' => .done () s'

/-- `ReadReg(sub)` (spec/40_register_model.md R107); a successful read has one byte, and the 0 is never reached (log entry
15). -/
def readReg (r : ChipRegister) (s : State) : Flow Byte :=
  andThen (issue (callReadRegister r) s) fun bs s' => .done (bs.headD 0) s'

/-- `WriteReg(sub, v)` (spec/40_register_model.md R108). -/
def writeReg (r : WritableRegister) (v : Byte) (s : State) : Flow Unit := issueWrite (callWriteRegister r v) s

/-- `Preflight()` (spec/41_mode_state_machine.md R117), the status byte laid out as `l` says. -/
def preflight (l : StatusLayout) (s : State) : Flow Unit :=
  andThen (readReg .status s) fun b s' => if isBusy l b then .raised .deviceBusy s' else .done () s'

/-- A post-check: an ungated status read whose failure bits raise `WriteFailure` (spec/43_write_mode_ops.md R134,
R136). -/
def postCheck (failed : Byte → Bool) (s : State) : Flow Unit :=
  andThen (readReg .status s) fun b s' => if failed b then .raised .writeFailure s' else .done () s'

/-! Admission (spec/41_mode_state_machine.md R115). -/

/-- The mode column of the operation table (spec/30_encoding.md R94). -/
inductive ModeColumn where
  | either
  | readOnly
  | writeOnly
deriving DecidableEq, Repr

/-- Whether a mode is in the column. -/
def columnAdmits : ModeColumn → Option Mode → Bool
  | .either, _ => true
  | .readOnly, m => decide (m = some .read)
  | .writeOnly, m => decide (m = some .write)

/-- Why a request other than `create` is refused, or none: attachment first, then operands, then mode (R115,
spec/60_exceptions.md R145). -/
def admission (column : ModeColumn) (operandsOk : Bool) (s : State) : Option RefusalReason :=
  if s.life = .detached then some .notAttached
  else if operandsOk = false then some .badOperand
  else if columnAdmits column s.mode = false then some .wrongMode
  else none

/-- A request refused, as the block does it: no transport call, no change of state, only the response
(spec/60_exceptions.md R144). The step of the machine then gives it no meaning (Machine/Block.lean). -/
def refuse (r : RefusalReason) (s : State) : State := respond (.refused r) s

/-- A request served: refused on entry, or its pseudocode run to its end and its response returned
(spec/30_encoding.md R93). -/
def serve (column : ModeColumn) (operandsOk : Bool) (body : State → Flow Value) (s : State) : State :=
  match admission column operandsOk s with
  | some r => refuse r s
  | none => finish (body s)

/-- A gated request: its preflight comes before its first command (spec/41_mode_state_machine.md R118). -/
def serveGated (column : ModeColumn) (operandsOk : Bool) (body : State → Flow Value) (s : State) : State :=
  serve column operandsOk (fun t => andThen (preflight s.config.regLayout.status t) fun _ t' => body t') s

/-! Bus commands standing alone at the transport port (log entry 11). -/

/-- The transaction of a bus command on its own: one transport call, while the block holds its transport
(spec/10_state.md R23). -/
def transact (c : Call) (s : State) : Host.Outcome State Fault Refusal :=
  match s.life with
  | .attached => .next (transport c s).2
  | .detached => .fault .noTransport

/-- The transaction of a command whose data phase has `n` bytes: a length that is 0 or above `MAX_XFER` is refused with
`BadOperand` (spec/20_memory.md R50). -/
def transactData (c : Call) (n : Nat) (s : State) : Host.Outcome State Fault Refusal :=
  match s.life with
  | .attached => .next (if s.config.lengthOk n then (transport c s).2 else refuse .badOperand s)
  | .detached => .fault .noTransport

end Sys2Proof.Machine
end

