-- ==== Sys2Proof/Machine/Commands.lean ====
section
/-! DEFINITION. The 19 bus commands (spec/30_encoding.md section 2), each as the transaction of its own transport call. A
command returns no response and writes no register of the block; the operations that build it do (log entry 11). -/

namespace Sys2Proof.Machine

/-- R68. -/
def execCmdDeviceReset (s : State) : Host.Outcome State Fault Refusal :=
  transact callDeviceReset s

/-- R69. -/
def execCmdJedecId (s : State) : Host.Outcome State Fault Refusal :=
  transact callJedecId s

/-- R70. -/
def execCmdReadRegister (reg : ChipRegister) (s : State) : Host.Outcome State Fault Refusal :=
  transact (callReadRegister reg) s

/-- R71. -/
def execCmdWriteRegister (reg : WritableRegister) (value : Byte) (s : State) : Host.Outcome State Fault Refusal :=
  transact (callWriteRegister reg value) s

/-- R72. -/
def execCmdWriteEnable (s : State) : Host.Outcome State Fault Refusal :=
  transact callWriteEnable s

/-- R73. -/
def execCmdWriteDisable (s : State) : Host.Outcome State Fault Refusal :=
  transact callWriteDisable s

/-- R74. -/
def execCmdBlockErase (ea : Word) (s : State) : Host.Outcome State Fault Refusal :=
  transact (callBlockErase ea) s

/-- R75. -/
def execCmdPageDataRead (pa : Word) (s : State) : Host.Outcome State Fault Refusal :=
  transact (callPageDataRead pa) s

/-- R76. -/
def execCmdProgramExecute (pa : Word) (s : State) : Host.Outcome State Fault Refusal :=
  transact (callProgramExecute pa) s

/-- R77. -/
def execCmdLoadClearSingle (ca : Word) (data : List Byte) (s : State) : Host.Outcome State Fault Refusal :=
  transactData (callLoadClearSingle ca data) data.length s

/-- R78. -/
def execCmdLoadRandomSingle (ca : Word) (data : List Byte) (s : State) : Host.Outcome State Fault Refusal :=
  transactData (callLoadRandomSingle ca data) data.length s

/-- R79. -/
def execCmdLoadClearQuad (ca : Word) (data : List Byte) (s : State) : Host.Outcome State Fault Refusal :=
  transactData (callLoadClearQuad ca data) data.length s

/-- R80. -/
def execCmdLoadRandomQuad (ca : Word) (data : List Byte) (s : State) : Host.Outcome State Fault Refusal :=
  transactData (callLoadRandomQuad ca data) data.length s

/-- R81. -/
def execCmdReadBbmLut (s : State) : Host.Outcome State Fault Refusal :=
  transact callReadBbmLut s

/-- R82. -/
def execCmdFastRead (ca : Word) (n : Nat) (s : State) : Host.Outcome State Fault Refusal :=
  transactData (callFastRead ca n) n s

/-- R83. -/
def execCmdFastReadDualOutput (ca : Word) (n : Nat) (s : State) : Host.Outcome State Fault Refusal :=
  transactData (callFastReadDualOutput ca n) n s

/-- R84. -/
def execCmdFastReadQuadOutput (ca : Word) (n : Nat) (s : State) : Host.Outcome State Fault Refusal :=
  transactData (callFastReadQuadOutput ca n) n s

/-- R85. -/
def execCmdFastReadDualIO (ca : Word) (n : Nat) (s : State) : Host.Outcome State Fault Refusal :=
  transactData (callFastReadDualIO ca n) n s

/-- R86. -/
def execCmdFastReadQuadIO (ca : Word) (n : Nat) (s : State) : Host.Outcome State Fault Refusal :=
  transactData (callFastReadQuadIO ca n) n s

end Sys2Proof.Machine
end

