-- ==== Sys2Proof/Machine/Lifecycle.lean ====
section
/-! DEFINITION. Creation and release of the block, the device reset and the identification read. -/

namespace Sys2Proof.Machine

/-- `create()` (spec/70_reset_and_hazards.md R153): the one request accepted while detached, and no other time. -/
def execCreate (s : State) : Host.Outcome State Fault Refusal :=
  .next
    (match s.life with
    | .attached => refuse .alreadyAttached s
    | .detached => finish (.done .unit { s with life := .attached, mode := some .read }))

/-- `release()` (spec/42_mode_independent_ops.md R133): the mode holds no value afterwards. -/
def execRelease (s : State) : Host.Outcome State Fault Refusal :=
  .next (serve .either true (fun s => .done .unit { s with life := .detached, mode := none }) s)

/-- `reset_device()` (spec/42_mode_independent_ops.md R127): not gated. -/
def execResetDevice (s : State) : Host.Outcome State Fault Refusal :=
  .next (serve .either true (fun s => andThen (issueWrite callDeviceReset s) fun _ s => .done .unit s) s)

/-- `get_jedec_id()` (spec/42_mode_independent_ops.md R128): not gated, the bytes returned as received. -/
def execGetJedecId (s : State) : Host.Outcome State Fault Refusal :=
  .next (serve .either true (fun s => andThen (issue callJedecId s) fun bs s => .done (.bytes bs) s) s)

end Sys2Proof.Machine
end

