-- ==== Sys2Proof/Machine/Lut.lean ====
section
/-! DEFINITION. The bad-block lookup table (spec/44_bbm_lut.md). -/

namespace Sys2Proof.Machine

/-- A LUT entry from its slot's four bytes: logical then physical, most-significant byte first, absent when both are 0
(R137, R138). -/
def lutEntry (b0 b1 b2 b3 : Byte) : Option (Word × Word) :=
  let lo := wordOf b0 b1
  let ph := wordOf b2 b3
  if lo = 0 ∧ ph = 0 then none else some (lo, ph)

/-- Slot `i` of a raw table; of the 80 bytes a read returns no slot lacks one (log entry 15). -/
def lutSlot (raw : List Byte) (i : Nat) : Option (Word × Word) :=
  lutEntry (raw.getD (4 * i) 0) (raw.getD (4 * i + 1) 0) (raw.getD (4 * i + 2) 0) (raw.getD (4 * i + 3) 0)

/-- `decode_lut` (R138): the 20 slots, in slot order. -/
def decodeLut (raw : List Byte) : List (Option (Word × Word)) := (List.range lutEntries).map (lutSlot raw)

/-- `read_bbm_lookup_table()` (R139). -/
def execReadBbmLookupTable (s : State) : Host.Outcome State Fault Refusal :=
  .next
    (serveGated .either true
      (fun s => andThen (issue callReadBbmLut s) fun bs s => .done (.lut (decodeLut bs)) s) s)

end Sys2Proof.Machine
end

