-- ==== Sys2Proof/Machine/Modes.lean ====
section
/-! DEFINITION. The mode transitions (spec/41_mode_state_machine.md section 3). -/

namespace Sys2Proof.Machine

/-- `enable_write()` (R121): accepted in `Read` mode; the mode changes on success only (R123). -/
def execEnableWrite (s : State) : Host.Outcome State Fault Refusal :=
  .next
    (serveGated .readOnly true
      (fun s => andThen (issueWrite callWriteEnable s) fun _ s => .done .unit (setMode .write s)) s)

/-- `disable_write()` (R122): accepted in `Write` mode; the mode changes on success only (R123). -/
def execDisableWrite (s : State) : Host.Outcome State Fault Refusal :=
  .next
    (serveGated .writeOnly true
      (fun s => andThen (issueWrite callWriteDisable s) fun _ s => .done .unit (setMode .read s)) s)

end Sys2Proof.Machine
end

