-- ==== Sys2Proof/Machine/Pages.lean ====
section
/-! DEFINITION. The page operations (spec/42_mode_independent_ops.md R129, R130, spec/43_write_mode_ops.md). -/

namespace Sys2Proof.Machine

/-- `read_memory_to_data_buffer(pa)` (R129). -/
def execReadMemoryToDataBuffer (pa : Word) (s : State) : Host.Outcome State Fault Refusal :=
  .next
    (serveGated .either true (fun s => andThen (issueWrite (callPageDataRead pa) s) fun _ s => .done .unit s) s)

/-- `read_data_buffer(method, ca, n)` (R130): a length of 0 or above `MAX_XFER` is refused with `BadOperand`. -/
def execReadDataBuffer (method : ReadMethod) (ca : Word) (n : Nat) (s : State) : Host.Outcome State Fault Refusal :=
  .next
    (serveGated .either (s.config.lengthOk n)
      (fun s => andThen (issue (callRead method ca n) s) fun bs s => .done (.bytes bs) s) s)

/-- `erase_128kb_block(pa)` (R134): the mode is `Read` once the command returned `Ok`, whatever the post-check says
(spec/41_mode_state_machine.md R123). -/
def execErase128kbBlock (pa : Word) (s : State) : Host.Outcome State Fault Refusal :=
  .next
    (serveGated .writeOnly true
      (fun t =>
        andThen (issueWrite (callBlockErase (eraseAddress s.config.eraseAddressForm pa)) t) fun _ t =>
          andThen (postCheck (eraseFailed s.config.regLayout.status) (setMode .read t)) fun _ t => .done .unit t) s)

/-- `load_to_data_buffer(method, clear, ca, data)` (R135): the mode stays `Write`. -/
def execLoadToDataBuffer (method : WriteMethod) (clear : Bool) (ca : Word) (data : List Byte) (s : State) :
    Host.Outcome State Fault Refusal :=
  .next
    (serveGated .writeOnly (s.config.lengthOk data.length)
      (fun s => andThen (issueWrite (callLoad method clear ca data) s) fun _ s => .done .unit s) s)

/-- `write_data_buffer_to_memory(pa)` (R136): as block erase, its post-check testing both failure bits. -/
def execWriteDataBufferToMemory (pa : Word) (s : State) : Host.Outcome State Fault Refusal :=
  .next
    (serveGated .writeOnly true
      (fun t =>
        andThen (issueWrite (callProgramExecute pa) t) fun _ t =>
          andThen (postCheck (programFailed s.config.regLayout.status) (setMode .read t)) fun _ t => .done .unit t) s)

end Sys2Proof.Machine
end

