-- ==== Sys2Proof/Machine/Polling.lean ====
section
/-! DEFINITION. The polling helper (spec/41_mode_state_machine.md section 4). -/

namespace Sys2Proof.Machine

/-- `check_busy()` (R124). -/
def execCheckBusy (s : State) : Host.Outcome State Fault Refusal :=
  .next
    (serve .either true
      (fun t => andThen (readReg .status t) fun b t => .done (.bool (isBusy s.config.regLayout.status b)) t) s)

/-- The end of a wait: `return Ok(())`, and the block is idle again. -/
def endWait (s : State) : State := respond (.ok .unit) { s with activity := .idle }

/-- One iteration of the wait's loop (R125): a failed status read ends it silently, a clear busy bit ends it, and
otherwise the wait stays in progress. -/
def pollOnce (s : State) : State :=
  match transport (callReadRegister .status) s with
  | (.err _, s') => endWait s'
  | (.ok bs, s') => if isBusy s.config.regLayout.status (bs.headD 0) then { s' with activity := .waiting } else endWait s'

/-- `wait_while_busy()` (R125): its first iteration; each later step while it is in progress is one more. -/
def execWaitWhileBusy (s : State) : Host.Outcome State Fault Refusal :=
  .next
    (match admission .either true s with
    | some r => refuse r s
    | none => pollOnce s)

end Sys2Proof.Machine
end

