-- ==== Sys2Proof/Machine/Registers.lean ====
section
/-! DEFINITION. The register accesses (spec/40_register_model.md section 2, spec/42_mode_independent_ops.md R131, R132). -/

namespace Sys2Proof.Machine

/-- `read_status_register()` (R109): not gated. -/
def execReadStatusRegister (s : State) : Host.Outcome State Fault Refusal :=
  .next
    (serve .either true
      (fun t => andThen (readReg .status t) fun b t => .done (.status (decodeStatus s.config.regLayout.status b)) t) s)

/-- `read_protection_register()` (R110). -/
def execReadProtectionRegister (s : State) : Host.Outcome State Fault Refusal :=
  .next
    (serveGated .either true
      (fun t =>
        andThen (readReg .protection t) fun b t =>
          .done (.protection (decodeProtection s.config.regLayout.protection b)) t) s)

/-- `read_configuration_register()` (R111). -/
def execReadConfigurationRegister (s : State) : Host.Outcome State Fault Refusal :=
  .next
    (serveGated .either true
      (fun t =>
        andThen (readReg .configuration t) fun b t =>
          .done (.configuration (decodeConfiguration s.config.regLayout.configuration b)) t) s)

/-- `write_protection_register(p)` (R112). -/
def execWriteProtectionRegister (p : ProtectionRegister) (s : State) : Host.Outcome State Fault Refusal :=
  .next
    (serveGated .either true
      (fun t =>
        andThen (writeReg .protection (encodeProtection s.config.regLayout.protection p) t) fun _ t => .done .unit t) s)

/-- `write_configuration_register(c)` (R113). -/
def execWriteConfigurationRegister (c : ConfigurationRegister) (s : State) : Host.Outcome State Fault Refusal :=
  .next
    (serveGated .either true
      (fun t =>
        andThen (writeReg .configuration (encodeConfiguration s.config.regLayout.configuration c) t) fun _ t => .done .unit t) s)

/-- `set_write_protection(p)` (R131): the whole protection value is written. -/
def execSetWriteProtection (p : ProtectionRegister) (s : State) : Host.Outcome State Fault Refusal :=
  .next
    (serveGated .either true
      (fun t =>
        andThen (writeReg .protection (encodeProtection s.config.regLayout.protection p) t) fun _ t => .done .unit t) s)

/-- The value `set_continuous_read_mode` writes back: the byte read, with `buf = not cont` (R132,
spec/10_state.md R37) and the reserved bits 0. -/
def continuousByte (l : ConfigurationLayout) (cont : Bool) (b : Byte) : Byte :=
  encodeConfiguration l { decodeConfiguration l b with buf := !cont }

/-- `set_continuous_read_mode(cont)` (R132): read, modify, write, with one preflight. -/
def execSetContinuousReadMode (cont : Bool) (s : State) : Host.Outcome State Fault Refusal :=
  .next
    (serveGated .either true
      (fun t =>
        andThen (readReg .configuration t) fun b t =>
          andThen (writeReg .configuration (continuousByte s.config.regLayout.configuration cont b) t) fun _ t =>
            .done .unit t) s)

end Sys2Proof.Machine
end

