-- ==== Sys2Proof/Machine/Dispatch.lean ====
section
/-! DEFINITION. The meaning of each instruction. -/

namespace Sys2Proof.Machine

def exec (i : Instr) (s : State) : Host.Outcome State Fault Refusal :=
  match i with
  | .create => Sys2Proof.Machine.execCreate s
  | .release => Sys2Proof.Machine.execRelease s
  | .resetDevice => Sys2Proof.Machine.execResetDevice s
  | .getJedecId => Sys2Proof.Machine.execGetJedecId s
  | .checkBusy => Sys2Proof.Machine.execCheckBusy s
  | .waitWhileBusy => Sys2Proof.Machine.execWaitWhileBusy s
  | .readStatusRegister => Sys2Proof.Machine.execReadStatusRegister s
  | .readProtectionRegister => Sys2Proof.Machine.execReadProtectionRegister s
  | .readConfigurationRegister => Sys2Proof.Machine.execReadConfigurationRegister s
  | .writeProtectionRegister p => Sys2Proof.Machine.execWriteProtectionRegister p s
  | .writeConfigurationRegister c => Sys2Proof.Machine.execWriteConfigurationRegister c s
  | .setWriteProtection p => Sys2Proof.Machine.execSetWriteProtection p s
  | .setContinuousReadMode cont => Sys2Proof.Machine.execSetContinuousReadMode cont s
  | .readMemoryToDataBuffer pa => Sys2Proof.Machine.execReadMemoryToDataBuffer pa s
  | .readDataBuffer method ca n => Sys2Proof.Machine.execReadDataBuffer method ca n s
  | .readBbmLookupTable => Sys2Proof.Machine.execReadBbmLookupTable s
  | .enableWrite => Sys2Proof.Machine.execEnableWrite s
  | .disableWrite => Sys2Proof.Machine.execDisableWrite s
  | .erase128kbBlock pa => Sys2Proof.Machine.execErase128kbBlock pa s
  | .loadToDataBuffer method clear ca data => Sys2Proof.Machine.execLoadToDataBuffer method clear ca data s
  | .writeDataBufferToMemory pa => Sys2Proof.Machine.execWriteDataBufferToMemory pa s
  | .cmdDeviceReset => Sys2Proof.Machine.execCmdDeviceReset s
  | .cmdJedecId => Sys2Proof.Machine.execCmdJedecId s
  | .cmdReadRegister reg => Sys2Proof.Machine.execCmdReadRegister reg s
  | .cmdWriteRegister reg value => Sys2Proof.Machine.execCmdWriteRegister reg value s
  | .cmdWriteEnable => Sys2Proof.Machine.execCmdWriteEnable s
  | .cmdWriteDisable => Sys2Proof.Machine.execCmdWriteDisable s
  | .cmdBlockErase ea => Sys2Proof.Machine.execCmdBlockErase ea s
  | .cmdPageDataRead pa => Sys2Proof.Machine.execCmdPageDataRead pa s
  | .cmdProgramExecute pa => Sys2Proof.Machine.execCmdProgramExecute pa s
  | .cmdLoadClearSingle ca data => Sys2Proof.Machine.execCmdLoadClearSingle ca data s
  | .cmdLoadRandomSingle ca data => Sys2Proof.Machine.execCmdLoadRandomSingle ca data s
  | .cmdLoadClearQuad ca data => Sys2Proof.Machine.execCmdLoadClearQuad ca data s
  | .cmdLoadRandomQuad ca data => Sys2Proof.Machine.execCmdLoadRandomQuad ca data s
  | .cmdReadBbmLut => Sys2Proof.Machine.execCmdReadBbmLut s
  | .cmdFastRead ca n => Sys2Proof.Machine.execCmdFastRead ca n s
  | .cmdFastReadDualOutput ca n => Sys2Proof.Machine.execCmdFastReadDualOutput ca n s
  | .cmdFastReadQuadOutput ca n => Sys2Proof.Machine.execCmdFastReadQuadOutput ca n s
  | .cmdFastReadDualIO ca n => Sys2Proof.Machine.execCmdFastReadDualIO ca n s
  | .cmdFastReadQuadIO ca n => Sys2Proof.Machine.execCmdFastReadQuadIO ca n s

end Sys2Proof.Machine
end

