-- ==== Sys2Proof/Machine/Fetch.lean ====
section
/-! DEFINITION. What the next step does: where the machine takes its next instruction from, and where the host's word is
placed so that it is the next one. -/

namespace Sys2Proof.Machine

/-- What the next step does. -/
inductive Fetched where
  /-- The block waits for a request. -/
  | idle
  /-- One more iteration of the wait in progress. -/
  | poll
  /-- This instruction runs, in the state without its encoding. -/
  | run (i : Instr) (s : State)
  /-- A request frame that does not decode is refused, in the state without it. -/
  | refusedFrame (r : RefusalReason) (s : State)
  /-- A call stands at the transport port that the block never builds. -/
  | neverBuilt
deriving DecidableEq, Repr

/-- The refusal of a frame that does not decode: attachment is checked before codes and operands
(spec/41_mode_state_machine.md R115, spec/60_exceptions.md R145). -/
def frameRefusal (r : RefusalReason) (s : State) : RefusalReason :=
  match s.life with
  | .detached => .notAttached
  | .attached => r

/-- The oldest request frame, accepted. -/
def fetchRequest (s : State) : Fetched :=
  match s.requests with
  | [] => .idle
  | frame :: rest =>
    match decodeRequest s.config.regLayout frame with
    | .instr i _ => .run i { s with requests := rest }
    | .refused r => .refusedFrame (frameRefusal r s) { s with requests := rest }
    | .neverBuilt => .neverBuilt

/-- While a wait is in progress no request is accepted (spec/30_encoding.md R93); a bus command standing alone goes before
the requests (log entry 11). -/
def fetch (s : State) : Fetched :=
  match s.activity with
  | .waiting => .poll
  | .idle =>
    match s.framed with
    | some c =>
      match decodeCall c with
      | some i => .run i { s with framed := none }
      | none => .neverBuilt
    | none => fetchRequest s

/-- The state in which the next step fetches an encoding, all else as it was. -/
def placeEncoding (e : Encoding) (s : State) : State :=
  match e with
  | .frame bytes => { s with activity := .idle, framed := none, requests := bytes :: s.requests }
  | .call c => { s with activity := .idle, framed := some c }

end Sys2Proof.Machine
end

