-- ==== Sys2Proof/Machine/Block.lean ====
section
/-! DEFINITION. What the block itself does next, refused requests answered and all, and which of its moves the model gives a
meaning. -/

namespace Sys2Proof.Machine

/-- One move of the block: one whole operation, or one status read of a wait (spec/30_encoding.md R93). A refused request is
answered on the response port and the block goes on (spec/10_state.md R22). A block with no request waits for one
(spec/70_reset_and_hazards.md R154, log entry 10). -/
def blockStep (s : State) : Host.Outcome State Fault Refusal :=
  match fetch s with
  | .idle => .next s
  | .poll => .next (pollOnce s)
  | .run i s' => exec i s'
  | .refusedFrame r s' => .next (refuse r s')
  | .neverBuilt => .refused .neverBuilt

/-- The reason the block refused the request it took in between `s` and `t`, if it refused it. -/
def refusalBetween (s t : State) : Option RefusalReason :=
  match t.responses.getLast? with
  | some (.refused r) => if t.responses = s.responses ++ [.refused r] then some r else none
  | _ => none

/-- A refused request has no meaning: "the Lean model gives the refused request no meaning (a refusal outcome)"
(spec/90_conflicts.md C2, spec/41_mode_state_machine.md R116, spec/60_exceptions.md R144). The refusal carries the reason the
block answers with; a move that refuses nothing stays as it is. -/
def unlessRefused (s : State) (o : Host.Outcome State Fault Refusal) : Host.Outcome State Fault Refusal :=
  match o with
  | .next t =>
    match refusalBetween s t with
    | some r => .refused (.request r)
    | none => .next t
  | .fault f => .fault f
  | .refused r => .refused r

end Sys2Proof.Machine
end

