-- ==== Sys2Proof/Machine/Step.lean ====
section
/-! DEFINITION. One step of the machine: a move of the block, a refused request being a refusal outcome. -/

namespace Sys2Proof.Machine

/-- One step: what the block does, unless it refused a request, which has no meaning (spec/41_mode_state_machine.md R116,
log entry 2). -/
def step (s : State) : Host.Outcome State Fault Refusal := unlessRefused s (blockStep s)

/-- `s` with a word of spec/opcode_table.json placed where the next step fetches it. -/
def State.withFetchWord (s : State) (nbits w : Nat) : State := placeEncoding (tableEncoding nbits w) s

end Sys2Proof.Machine
end

