-- ==== Sys2Proof/Safety.lean ====
section
/-! DEFINITION. The invariant of the machine, and what counts as a run in which every request was accepted. -/

namespace Sys2Proof.Machine

/-- The calls the block builds (spec/00_scope.md R7, spec/30_encoding.md R66, R97): one of the 19 commands, its data
phase, where it has one, of a legal length (spec/20_memory.md R50). -/
def CallBuilt (cfg : Config) (c : Call) : Prop :=
  ∃ i : Instr,
    decodeCall c = some i ∧
      match c with
      | .write d p => d.data.isSome → cfg.lengthOk p.length = true
      | .transfer _ n => cfg.lengthOk n = true

/-- A result of the shape its primitive returns (spec/00_scope.md R15). -/
def ResultFits : Call → CallResult → Prop
  | .write _ _, .ok bs => bs = []
  | .transfer _ n, .ok bs => bs.length = n
  | _, .err _ => True

/-- An entry the transcript may hold. -/
def EventLegal (cfg : Config) (e : Event) : Prop := CallBuilt cfg e.call ∧ ResultFits e.call e.result

/-- The reference device's memories, where there is one, are in canonical form. -/
def EnvWf : Env → Prop
  | .script _ => True
  | .device chip => chipWf chip

/-- A response other than a refusal. -/
def Response.accepted : Response → Bool
  | .ok _ => true
  | .err _ => true
  | .refused _ => false

/-- Every request so far was accepted. A request the block refuses has no meaning (spec/41_mode_state_machine.md R116), so
no run of the machine leaves the safe states. -/
def State.Safe (s : State) : Prop := ∀ r ∈ s.responses, Response.accepted r = true

/-- The invariant of the machine. -/
structure State.Inv (s : State) : Prop where
  /-- `mode` holds a value exactly while the block is attached (spec/10_state.md R30). -/
  modeHeld : s.mode = none ↔ s.life = .detached
  /-- Only an attached block has a wait in progress. -/
  waitAttached : s.activity = .waiting → s.life = .attached
  /-- The calls are counted. -/
  counted : s.calls = s.transcript.length
  /-- Every call in the transcript is one the block builds, with a result of the right shape. -/
  legal : ∀ e ∈ s.transcript, EventLegal s.config e
  /-- The reference device keeps its memories canonical. -/
  envWf : EnvWf s.env
  /-- In every register each field has a bit of its own (spec/10_state.md R32). -/
  layoutDistinct : s.config.regLayout.Distinct
  /-- No request of the run was refused (spec/41_mode_state_machine.md R116). -/
  safe : s.Safe

/-! The columns of the operation table (spec/30_encoding.md R94), in the terms the claims use. A bus command is no row of
that table; its entries here are those of a request that is always admitted. -/

/-- The "Mode" column. -/
def requestColumn : Instr → ModeColumn
  | .enableWrite => .readOnly
  | .disableWrite => .writeOnly
  | .erase128kbBlock _ => .writeOnly
  | .loadToDataBuffer _ _ _ _ => .writeOnly
  | .writeDataBufferToMemory _ => .writeOnly
  | _ => .either

/-- The "gated" column. -/
def requestGated : Instr → Bool
  | .readProtectionRegister => true
  | .readConfigurationRegister => true
  | .writeProtectionRegister _ => true
  | .writeConfigurationRegister _ => true
  | .setWriteProtection _ => true
  | .setContinuousReadMode _ => true
  | .readMemoryToDataBuffer _ => true
  | .readDataBuffer _ _ _ => true
  | .readBbmLookupTable => true
  | .enableWrite => true
  | .disableWrite => true
  | .erase128kbBlock _ => true
  | .loadToDataBuffer _ _ _ _ => true
  | .writeDataBufferToMemory _ => true
  | _ => false

/-- The length operands are from 1 to `MAX_XFER` (spec/20_memory.md R50). -/
def lengthsOk (cfg : Config) : Instr → Prop
  | .readDataBuffer _ _ n => 1 ≤ n ∧ n ≤ cfg.maxXfer
  | .loadToDataBuffer _ _ _ data => 1 ≤ data.length ∧ data.length ≤ cfg.maxXfer
  | _ => True

/-- The request passes admission (spec/41_mode_state_machine.md R115); `create` has a rule of its own. -/
def Admitted (i : Instr) (s : State) : Prop :=
  s.life = .attached ∧ lengthsOk s.config i ∧ columnAdmits (requestColumn i) s.mode = true

/-- What a transport call made in `s` leads to, `o` being the outcome of the operation that makes it: a failure ends the
operation with the mapped error (spec/60_exceptions.md R142, R143), and otherwise `k` holds of the bytes returned and
the state after the call. -/
def AfterCall (c : Call) (s : State) (o : Host.Outcome State Fault Refusal) (k : List Byte → State → Prop) : Prop :=
  (∀ u t, transport c s = (.err u, t) → o = .next { t with responses := t.responses ++ [.err (mapError u)] }) ∧
    ∀ bs t, transport c s = (.ok bs, t) → k bs t

/-- What the preflight of a gated request in `s` leads to (spec/41_mode_state_machine.md R117): a failed read and a busy
chip end the operation, and otherwise `k` holds of the state after the read. -/
def AfterPreflight (s : State) (o : Host.Outcome State Fault Refusal) (k : State → Prop) : Prop :=
  AfterCall (callReadRegister .status) s o fun bs t =>
    ∃ b, bs = [b] ∧
      ((decodeStatus s.config.regLayout.status b).deviceBusy = true → o = .next { t with responses := t.responses ++ [.err .deviceBusy] }) ∧
      ((decodeStatus s.config.regLayout.status b).deviceBusy = false → k t)

/-- The main command of an operation that writes the mode, and the mode it writes (spec/41_mode_state_machine.md R114). -/
def modeEffect (cfg : Config) : Instr → Option (Call × Mode)
  | .enableWrite => some (callWriteEnable, .write)
  | .disableWrite => some (callWriteDisable, .read)
  | .erase128kbBlock pa => some (callBlockErase (eraseAddress cfg.eraseAddressForm pa), .read)
  | .writeDataBufferToMemory pa => some (callProgramExecute pa, .read)
  | _ => none

/-- The same machine with an older history before its own. -/
def withEarlier (events : List Event) (responses : List Response) (s : State) : State :=
  { s with transcript := events ++ s.transcript, responses := responses ++ s.responses }

end Sys2Proof.Machine
end

