-- ==== Sys2Proof/Certificates/Slice0/Obligations.lean ====
section
/-! DEFINITION. The statements for the provers. -/

open Sys2Proof Sys2Proof.Machine

/-! Encodings. -/

/-- Words written out from the spec's encodings: the frame of R99, three frames of L2.3 and two descriptors of L2.2. None
holds a register value, so they read alike under every layout. -/
def Obligations.WrittenOutEncodingsDecode : Prop :=
  (∀ l : RegLayout,
      decodeRequest l [0x13, 0x00, 0x01, 0x00, 0x00, 0x00, 0x05, 0x00, 0x01, 0x02, 0x03, 0x2A]
          = .instr (.loadToDataBuffer .single true 0x0000 [0, 1, 2, 3, 42]) [] ∧
        decodeRequest l [0x0E, 0x04, 0x01, 0x23, 0x00, 0x10] = .instr (.readDataBuffer .fastReadQuadIO 0x0123 16) [] ∧
        decodeRequest l [0x12, 0x00, 0x47] = .instr (.erase128kbBlock 0x0047) [] ∧
        decodeRequest l [0x15] = .refused .unknownOperation) ∧
    decodeCall (.write ⟨0xD8, .one, some ⟨0x0040, 2, .one⟩, none, 8, none⟩ []) = some (.cmdBlockErase 0x0040) ∧
    decodeCall (.transfer ⟨0xEB, .one, some ⟨0x0123, 2, .four⟩, none, 4, some .four⟩ 16)
      = some (.cmdFastReadQuadIO 0x0123 16)

/-- Every well-formed instruction, request or bus command, is read back from its encoding, with nothing left over, under
every `REG_LAYOUT` that gives each field a bit of its own (R32). -/
def Obligations.EncodedInstructionsDecode : Prop :=
  ∀ (l : RegLayout) (i : Instr), l.Distinct → i.wf = true → decode l (encode l i) = .instr i []

/-- A transport call that decodes at all is the call its command encodes to: no two calls are one command, and none is
read with a field it does not have (R97). A register value stands in a call as its byte, so no layout matters here. -/
def Obligations.DecodedCallsEncodeBack : Prop :=
  ∀ (l : RegLayout) (c : Call) (i : Instr), decodeCall c = some i → encode l i = .call c

/-- A frame cut short anywhere after its code byte is refused with `BadOperand` (R96). -/
def Obligations.CutFramesAreBadOperands : Prop :=
  ∀ (l : RegLayout) (i : Instr) (f : List Byte) (k : Nat), i.wf = true → encode l i = .frame f → 1 ≤ k →
    k < f.length → decodeRequest l (f.take k) = .refused .badOperand

/-- Codes above 0x14 are unknown; method bytes outside the enumerations and Bool bytes other than 0 and 1 are bad
operands, whatever the rest of the frame (R96). -/
def Obligations.ReservedRequestBytesRefused : Prop :=
  ∀ (l : RegLayout) (ops : List Byte),
    (∀ code : Byte, 0x14 < code.toNat → decodeRequest l (code :: ops) = .refused .unknownOperation) ∧
      (∀ m : Byte, 4 < m.toNat → decodeRequest l (0x0E :: m :: ops) = .refused .badOperand) ∧
      (∀ m : Byte, 1 < m.toNat → decodeRequest l (0x13 :: m :: ops) = .refused .badOperand) ∧
      (∀ m v : Byte, 1 < v.toNat → decodeRequest l (0x13 :: m :: v :: ops) = .refused .badOperand) ∧
      ∀ v : Byte, 1 < v.toNat → decodeRequest l (0x0C :: v :: ops) = .refused .badOperand

/-- THE MODEL'S CHOICE (log entry 7): bytes after a frame's operands are handed back and change nothing else. -/
def Obligations.SurplusFrameBytesIgnored : Prop :=
  ∀ (l : RegLayout) (i : Instr) (f extra : List Byte), l.Distinct → i.wf = true → encode l i = .frame f →
    decodeRequest l (f ++ extra) = .instr i extra

/-- The descriptors and primitives of the commands without a data buffer operand (R68 to R76, R81). -/
def Obligations.ControlCommandDescriptors : Prop :=
  callDeviceReset = .write ⟨0xFF, .one, none, none, 0, none⟩ [] ∧
    callJedecId = .transfer ⟨0x9F, .one, none, none, 8, some .one⟩ 3 ∧
    callReadRegister .protection = .transfer ⟨0x05, .one, some ⟨0xA0, 1, .one⟩, none, 0, some .one⟩ 1 ∧
    callReadRegister .configuration = .transfer ⟨0x05, .one, some ⟨0xB0, 1, .one⟩, none, 0, some .one⟩ 1 ∧
    callReadRegister .status = .transfer ⟨0x05, .one, some ⟨0xC0, 1, .one⟩, none, 0, some .one⟩ 1 ∧
    (∀ v, callWriteRegister .protection v = .write ⟨0x01, .one, none, none, 0, some .one⟩ [0xA0, v]) ∧
    (∀ v, callWriteRegister .configuration v = .write ⟨0x01, .one, none, none, 0, some .one⟩ [0xB0, v]) ∧
    callWriteEnable = .write ⟨0x06, .one, none, none, 0, none⟩ [] ∧
    callWriteDisable = .write ⟨0x04, .one, none, none, 0, none⟩ [] ∧
    (∀ ea, callBlockErase ea = .write ⟨0xD8, .one, some ⟨ea, 2, .one⟩, none, 8, none⟩ []) ∧
    (∀ pa, callPageDataRead pa = .write ⟨0x13, .one, some ⟨pa, 2, .one⟩, none, 8, none⟩ []) ∧
    (∀ pa, callProgramExecute pa = .write ⟨0x10, .one, some ⟨pa, 2, .one⟩, none, 8, none⟩ []) ∧
    callReadBbmLut = .transfer ⟨0xA5, .one, none, none, 8, some .one⟩ 80

/-- The descriptors that `(WriteMethod, clear)` and `ReadMethod` select (R77 to R80, R82 to R88). -/
def Obligations.BufferCommandDescriptors : Prop :=
  ∀ (ca : Word) (p : List Byte) (n : Nat),
    callLoad .single true ca p = .write ⟨0x02, .one, some ⟨ca, 2, .one⟩, none, 0, some .one⟩ p ∧
      callLoad .single false ca p = .write ⟨0x84, .one, some ⟨ca, 2, .one⟩, none, 0, some .one⟩ p ∧
      callLoad .quad true ca p = .write ⟨0x32, .one, some ⟨ca, 2, .one⟩, none, 0, some .four⟩ p ∧
      callLoad .quad false ca p = .write ⟨0x34, .one, some ⟨ca, 2, .one⟩, none, 0, some .four⟩ p ∧
      callRead .fastRead ca n = .transfer ⟨0x0B, .one, some ⟨ca, 2, .one⟩, none, 8, some .one⟩ n ∧
      callRead .fastReadDualOutput ca n = .transfer ⟨0x3B, .one, some ⟨ca, 2, .one⟩, none, 8, some .two⟩ n ∧
      callRead .fastReadQuadOutput ca n = .transfer ⟨0x6B, .one, some ⟨ca, 2, .one⟩, none, 8, some .four⟩ n ∧
      callRead .fastReadDualIO ca n = .transfer ⟨0xBB, .one, some ⟨ca, 2, .two⟩, none, 4, some .two⟩ n ∧
      callRead .fastReadQuadIO ca n = .transfer ⟨0xEB, .one, some ⟨ca, 2, .four⟩, none, 4, some .four⟩ n

/-- The address sent by block erase under each form, and the bytes of a two-byte address phase, most-significant first. -/
def Obligations.AddressFields : Prop :=
  (∀ pa, eraseAddress .pageAsGiven pa = pa) ∧
    (∀ pa, (eraseAddress .blockAligned pa).toNat = 64 * (pa.toNat / 64)) ∧
    ∀ pa : Word, ∃ hi lo : Byte, addrBytes (pagePhase pa) = [hi, lo] ∧ pa.toNat = 256 * hi.toNat + lo.toNat

/-- Every transport call that decodes as one of the 19 commands has a legal descriptor (R66, R97, the 19 instruction bytes
of R7, and R71 for 0x01). That the block's own calls are such calls is the invariant's, StepKeepsInvariant. -/
def Obligations.BuiltDescriptorsAreLegal : Prop :=
  ∀ (c : Call) (i : Instr), decodeCall c = some i →
    ∃ d : Desc, ((∃ p, c = .write d p) ∨ ∃ n, c = .transfer d n) ∧
      d.instr ∈ ([0xFF, 0x9F, 0x05, 0x01, 0x06, 0x04, 0xD8, 0x02, 0x84, 0x32, 0x34, 0xA5, 0x10, 0x13, 0x0B, 0x3B, 0x6B,
        0xBB, 0xEB] : List Byte) ∧
      d.instrLines = .one ∧ d.alt = none ∧ (d.dummy = 0 ∨ d.dummy = 4 ∨ d.dummy = 8) ∧
      (∀ a, d.addr = some a → a.size = 1 ∨ a.size = 2) ∧
      (∀ sub v, c = .write d [sub, v] → d.instr = 0x01 → sub = 0xA0 ∨ sub = 0xB0) ∧
      (d.instr = 0x05 → ∃ a, d.addr = some a ∧ a.size = 1 ∧ (a.value = 0xA0 ∨ a.value = 0xB0 ∨ a.value = 0xC0))

/-! The register codec. -/

/-- The ECC truth table (R100), and that the four pairs give the four values. -/
def Obligations.EccTruthTable : Prop :=
  eccDecode false false = .successful ∧ eccDecode true false = .correctedSuccessfully ∧
    eccDecode false true = .singlePageError ∧ eccDecode true true = .multiPageError ∧
    (∀ a b c d, eccDecode a b = eccDecode c d → a = c ∧ b = d) ∧ ∀ e, ∃ a b, eccDecode a b = e

/-- The fields of the three bytes at the layout's default positions, which the spec takes from general knowledge (log
entry 5). -/
def Obligations.RegisterFieldPositions : Prop :=
  (∀ b : Byte, decodeStatus regLayout.status b =
      ⟨b.getLsbD 0, b.getLsbD 1, b.getLsbD 2, b.getLsbD 3, eccDecode (b.getLsbD 4) (b.getLsbD 5), b.getLsbD 6⟩) ∧
    (∀ b : Byte, decodeProtection regLayout.protection b =
      ⟨b.getLsbD 7, b.getLsbD 6, b.getLsbD 5, b.getLsbD 4, b.getLsbD 3, b.getLsbD 2, b.getLsbD 1, b.getLsbD 0⟩) ∧
    (∀ b : Byte, decodeConfiguration regLayout.configuration b =
      ⟨b.getLsbD 7, b.getLsbD 6, b.getLsbD 5, b.getLsbD 4, b.getLsbD 3⟩) ∧
    (∀ b : Byte, encodeProtection regLayout.protection (decodeProtection regLayout.protection b) = b) ∧
    ∀ b : Byte, encodeConfiguration regLayout.configuration (decodeConfiguration regLayout.configuration b) = b &&& 0xF8

/-- Value to byte to value loses nothing, for both writable registers and under every layout that gives each field a bit
of its own (R106). -/
def Obligations.CodecRoundTripsInAnyLayout : Prop :=
  (∀ l : ProtectionLayout, l.Distinct → ∀ p, decodeProtection l (encodeProtection l p) = p) ∧
    ∀ l : ConfigurationLayout, l.Distinct → ∀ c, decodeConfiguration l (encodeConfiguration l c) = c

/-! Transport calls. -/

/-- A transport call is answered with a result of its primitive's shape, recorded at the end of the transcript, and
changes nothing of the block or of its other ports (R15, R54). -/
def Obligations.TransportCallsAreRecorded : Prop :=
  ∀ (c : Call) (s t : State) (r : CallResult), transport c s = (r, t) →
    ResultFits c r ∧ t.transcript = s.transcript ++ [⟨c, r⟩] ∧ t.calls = s.calls + 1 ∧
      t.life = s.life ∧ t.mode = s.mode ∧ t.activity = s.activity ∧ t.requests = s.requests ∧
      t.responses = s.responses ∧ t.framed = s.framed ∧ t.config = s.config

/-- The environment may give any result to any call (R59): for each there is an environment that gives it. -/
def Obligations.EnvironmentIsAnOracle : Prop :=
  ∀ (c : Call) (r : CallResult) (s : State), ResultFits c r →
    ∃ e : Env, (transport c { s with env := e }).1 = r

/-! The step. -/

/-- The step of an idle block takes its next instruction off the port and runs it: a request frame, or a bus command that
stands alone at the transport port (log entry 11), which goes first. The outcome of exec is the outcome of the step, but a
refused request is a refusal outcome (R116, R144, conflict C2). A call the block never builds stops the machine. -/
def Obligations.StepRunsTheDecodedInstruction : Prop :=
  (∀ (s s' : State) (i : Instr), s.activity = .idle →
    ((∃ frame extra rest, s.framed = none ∧ s.requests = frame :: rest ∧
          decodeRequest s.config.regLayout frame = .instr i extra ∧ s' = { s with requests := rest }) ∨
        ∃ c, s.framed = some c ∧ decodeCall c = some i ∧ s' = { s with framed := none }) →
    (∀ t, exec i s' = .next t → (∀ r, t.responses ≠ s'.responses ++ [.refused r]) → step s = .next t) ∧
      (∀ t r, exec i s' = .next t → t.responses = s'.responses ++ [.refused r] → step s = .refused (.request r)) ∧
      ∀ f, exec i s' = .fault f → step s = .fault f) ∧
    ∀ (s : State) (c : Call), s.activity = .idle → s.framed = some c → decodeCall c = none →
      step s = .refused .neverBuilt

/-- An encoded instruction, placed where the step fetches, is what the next step runs, a refused request being a refusal
outcome (R116). THE MODEL'S CHOICE in part: how an instruction is placed is log entry 12, and that a command placed alone at
the transport port is run is log entry 11. -/
def Obligations.PlacedInstructionRunsNext : Prop :=
  ∀ (i : Instr) (s : State), s.config.regLayout.Distinct → i.wf = true →
    step (placeEncoding (encode s.config.regLayout i) s) =
      unlessRefused s (exec i { s with activity := .idle, framed := none })

/-- While a wait is in progress no request is accepted: the step is one more status read (R93, R125). -/
def Obligations.WaitInProgressHoldsRequests : Prop :=
  ∀ s t : State, s.activity = .waiting → step s = .next t → t.requests = s.requests ∧
    ∃ r, t.transcript = s.transcript ++ [⟨callReadRegister .status, r⟩]

/-- A block with no request waits for one. -/
def Obligations.IdleBlockWaits : Prop :=
  ∀ s : State, s.activity = .idle → s.framed = none → s.requests = [] → step s = .next s

/-- The block answers a frame that does not decode with a refusal, which costs the request and a response, nothing else;
attachment is checked before the code and the operands (R115, R144, R145). The step of the machine makes it a refusal outcome
with the same reason (R144). -/
def Obligations.UndecodedFrameRefused : Prop :=
  ∀ (s : State) (frame : List Byte) (rest : List (List Byte)) (r : RefusalReason),
    s.activity = .idle → s.framed = none → s.requests = frame :: rest →
    decodeRequest s.config.regLayout frame = .refused r →
    (s.life = .attached →
        blockStep s = .next { s with requests := rest, responses := s.responses ++ [.refused r] } ∧
          step s = .refused (.request r)) ∧
      (s.life = .detached →
        blockStep s = .next { s with requests := rest, responses := s.responses ++ [.refused .notAttached] } ∧
          step s = .refused (.request .notAttached))

/-! The invariant. -/

/-- The machine right after reset meets the invariant, and so does the machine before creation. -/
def Obligations.ResetMeetsInvariant : Prop := State.reset.Inv ∧ State.beforeCreation.Inv

/-- Every step keeps the invariant: the mode is held exactly while attached, only an attached block waits, every call in
the transcript is one the block builds with a result of the right shape, the reference device's memories stay canonical,
`REG_LAYOUT` gives each field a bit of its own, and no request was refused. -/
def Obligations.StepKeepsInvariant : Prop := ∀ s t : State, s.Inv → step s = .next t → t.Inv

/-- What reset leaves (R30, R154): attached, in `Read` mode, idle; the parameters that have a default at it (R12). That no
request is pending and that nothing stands in the histories are the model's own fields and THE MODEL'S CHOICE (log entry 1);
the positions of the default layout are PRESUMED (log entry 5). -/
def Obligations.ResetState : Prop :=
  State.reset.life = .attached ∧ State.reset.mode = some .read ∧ State.reset.activity = .idle ∧
    State.reset.requests = [] ∧ State.reset.responses = [] ∧ State.reset.transcript = [] ∧
    State.reset.config.quadReadMethod = .fastReadQuadOutput ∧ State.reset.config.regLayout = regLayout ∧
    State.beforeCreation.life = .detached ∧ State.beforeCreation.mode = none

/-! Admission. -/

/-- A detached block refuses every request but `create` with `NotAttached`, with no other effect (R23, R144). -/
def Obligations.DetachedRefusesRequests : Prop :=
  ∀ (i : Instr) (s : State), i.isRequest = true → i ≠ .create → s.life = .detached →
    exec i s = .next { s with responses := s.responses ++ [.refused .notAttached] }

/-- On an attached block a bad length is refused before the mode is looked at, and a request of the other mode is refused
with `WrongMode`, both with no other effect (R115, R116, R145). -/
def Obligations.AdmissionChecksLengthThenMode : Prop :=
  ∀ (i : Instr) (s : State), i.isRequest = true → i ≠ .create → s.life = .attached →
    (¬ lengthsOk s.config i →
        exec i s = .next { s with responses := s.responses ++ [.refused .badOperand] }) ∧
      (lengthsOk s.config i → columnAdmits (requestColumn i) s.mode = false →
        exec i s = .next { s with responses := s.responses ++ [.refused .wrongMode] })

/-- A request answered with a refusal made no transport call and changed nothing but the response port (R144), and the
machine's step gives it no meaning: a refusal outcome with the same reason (R116, conflict C2). -/
def Obligations.RefusedRequestsChangeNothing : Prop :=
  ∀ (i : Instr) (s t : State) (r : RefusalReason), i.isRequest = true → exec i s = .next t →
    t.responses = s.responses ++ [.refused r] →
    t = { s with responses := s.responses ++ [.refused r] } ∧
      unlessRefused s (exec i s) = .refused (.request r)

/-- A bus command needs the transport: on a detached block it stops the machine (R23; the stop is the model's, log
entry 11). -/
def Obligations.CommandsNeedTheTransport : Prop :=
  ∀ (i : Instr) (s : State), i.isRequest = false → s.life = .detached → exec i s = .fault .noTransport

/-! Gating. -/

/-- A gated request that passes admission makes the status read first; a failed read ends it with the mapped error and a
busy chip with `Err(DeviceBusy)`, after that one transport call and with nothing else changed (R117, R119). -/
def Obligations.PreflightStopsGatedRequests : Prop :=
  ∀ (i : Instr) (s s1 : State), requestGated i = true → Admitted i s →
    (∀ u, transport (callReadRegister .status) s = (.err u, s1) →
        exec i s = .next { s1 with responses := s1.responses ++ [.err (mapError u)] }) ∧
      ∀ b, transport (callReadRegister .status) s = (.ok [b], s1) → (decodeStatus s.config.regLayout.status b).deviceBusy = true →
        exec i s = .next { s1 with responses := s1.responses ++ [.err .deviceBusy] }

/-! Results of the requests. -/

/-- `create` (R153). -/
def Obligations.CreateAttaches : Prop :=
  ∀ s : State,
    (s.life = .detached →
        exec .create s =
          .next { s with life := .attached, mode := some .read, responses := s.responses ++ [.ok .unit] }) ∧
      (s.life = .attached → exec .create s = .next { s with responses := s.responses ++ [.refused .alreadyAttached] })

/-- `release` (R133). -/
def Obligations.ReleaseDetaches : Prop :=
  ∀ s : State, s.life = .attached →
    exec .release s = .next { s with life := .detached, mode := none, responses := s.responses ++ [.ok .unit] }

/-- `reset_device` and `get_jedec_id` make their one call at once, busy chip or not, and return its outcome (R127,
R128). -/
def Obligations.UngatedCommandsRunAtOnce : Prop :=
  ∀ s : State, s.life = .attached →
    AfterCall callDeviceReset s (exec .resetDevice s) (fun _ t =>
        exec .resetDevice s = .next { t with responses := t.responses ++ [.ok .unit] }) ∧
      AfterCall callJedecId s (exec .getJedecId s) fun bs t =>
        ∃ b0 b1 b2, bs = [b0, b1, b2] ∧
          exec .getJedecId s = .next { t with responses := t.responses ++ [.ok (.bytes [b0, b1, b2])] }

/-- `check_busy` and `read_status_register` read the status once, ungated, and return what it decodes to (R109, R124). -/
def Obligations.StatusQueries : Prop :=
  ∀ s : State, s.life = .attached →
    AfterCall (callReadRegister .status) s (exec .checkBusy s) (fun bs t =>
        ∃ b, bs = [b] ∧
          exec .checkBusy s = .next { t with responses := t.responses ++ [.ok (.bool (decodeStatus s.config.regLayout.status b).deviceBusy)] }) ∧
      AfterCall (callReadRegister .status) s (exec .readStatusRegister s) fun bs t =>
        ∃ b, bs = [b] ∧
          exec .readStatusRegister s = .next { t with responses := t.responses ++ [.ok (.status (decodeStatus s.config.regLayout.status b))] }

/-- One iteration of `wait_while_busy`, the first as the request and each later one as a step: a failed read or a clear
busy bit ends it with `Ok(())`, a set busy bit keeps it in progress (R125). -/
def Obligations.WaitIteration : Prop :=
  ∀ (s t : State) (o : Host.Outcome State Fault Refusal),
    (s.life = .attached ∧ o = exec .waitWhileBusy s) ∨ (s.activity = .waiting ∧ o = step s) →
    (∀ u, transport (callReadRegister .status) s = (.err u, t) →
        o = .next { t with activity := .idle, responses := t.responses ++ [.ok .unit] }) ∧
      (∀ b, transport (callReadRegister .status) s = (.ok [b], t) → (decodeStatus s.config.regLayout.status b).deviceBusy = false →
        o = .next { t with activity := .idle, responses := t.responses ++ [.ok .unit] }) ∧
      (∀ b, transport (callReadRegister .status) s = (.ok [b], t) → (decodeStatus s.config.regLayout.status b).deviceBusy = true →
        o = .next { t with activity := .waiting })

/-- `read_protection_register` and `read_configuration_register` (R110, R111). -/
def Obligations.RegisterReads : Prop :=
  ∀ s : State, s.life = .attached →
    AfterPreflight s (exec .readProtectionRegister s) (fun s1 =>
        AfterCall (callReadRegister .protection) s1 (exec .readProtectionRegister s) fun bs t =>
          ∃ b, bs = [b] ∧
            exec .readProtectionRegister s =
              .next { t with responses := t.responses ++ [.ok (.protection (decodeProtection s.config.regLayout.protection b))] }) ∧
      AfterPreflight s (exec .readConfigurationRegister s) fun s1 =>
        AfterCall (callReadRegister .configuration) s1 (exec .readConfigurationRegister s) fun bs t =>
          ∃ b, bs = [b] ∧
            exec .readConfigurationRegister s =
              .next { t with responses := t.responses ++ [.ok (.configuration (decodeConfiguration s.config.regLayout.configuration b))] }

/-- The three register writes send the encoded value as given (R112, R113, R131). -/
def Obligations.RegisterWrites : Prop :=
  ∀ (s : State) (p : ProtectionRegister) (c : ConfigurationRegister), s.life = .attached →
    AfterPreflight s (exec (.writeProtectionRegister p) s) (fun s1 =>
        AfterCall (callWriteRegister .protection (encodeProtection s.config.regLayout.protection p)) s1
          (exec (.writeProtectionRegister p) s) fun _ t =>
            exec (.writeProtectionRegister p) s = .next { t with responses := t.responses ++ [.ok .unit] }) ∧
      AfterPreflight s (exec (.setWriteProtection p) s) (fun s1 =>
        AfterCall (callWriteRegister .protection (encodeProtection s.config.regLayout.protection p)) s1
          (exec (.setWriteProtection p) s) fun _ t =>
            exec (.setWriteProtection p) s = .next { t with responses := t.responses ++ [.ok .unit] }) ∧
      AfterPreflight s (exec (.writeConfigurationRegister c) s) fun s1 =>
        AfterCall (callWriteRegister .configuration (encodeConfiguration s.config.regLayout.configuration c)) s1
          (exec (.writeConfigurationRegister c) s) fun _ t =>
            exec (.writeConfigurationRegister c) s = .next { t with responses := t.responses ++ [.ok .unit] }

/-- `set_continuous_read_mode` (R132), under every layout that gives each field a bit of its own: the byte written holds the
fields read, but for `buf`, which is the negation of the operand, and 0 in every bit that holds no field; a failed read
writes nothing. -/
def Obligations.SetContinuousReadModeRewrites : Prop :=
  ∀ (s : State) (cont : Bool) (l : ConfigurationLayout), l = s.config.regLayout.configuration → l.Distinct →
    s.life = .attached →
    AfterPreflight s (exec (.setContinuousReadMode cont) s) fun s1 =>
      AfterCall (callReadRegister .configuration) s1 (exec (.setContinuousReadMode cont) s) fun bs s2 =>
        ∃ b v, bs = [b] ∧ decodeConfiguration l v = { decodeConfiguration l b with buf := !cont } ∧
          (∀ j : Fin 8, j ∉ l.bits → v.getLsbD j = false) ∧
          AfterCall (callWriteRegister .configuration v) s2 (exec (.setContinuousReadMode cont) s) fun _ t =>
            exec (.setContinuousReadMode cont) s = .next { t with responses := t.responses ++ [.ok .unit] }

/-- `read_memory_to_data_buffer` (R129). -/
def Obligations.PageStageResult : Prop :=
  ∀ (s : State) (pa : Word), s.life = .attached →
    AfterPreflight s (exec (.readMemoryToDataBuffer pa) s) fun s1 =>
      AfterCall (callPageDataRead pa) s1 (exec (.readMemoryToDataBuffer pa) s) fun _ t =>
        exec (.readMemoryToDataBuffer pa) s = .next { t with responses := t.responses ++ [.ok .unit] }

/-- `read_data_buffer`, for every method, column and legal length: the `n` bytes are returned as received (R130). -/
def Obligations.BufferReadResult : Prop :=
  ∀ (s : State) (m : ReadMethod) (ca : Word) (n : Nat), s.life = .attached → 1 ≤ n → n ≤ s.config.maxXfer →
    AfterPreflight s (exec (.readDataBuffer m ca n) s) fun s1 =>
      AfterCall (callRead m ca n) s1 (exec (.readDataBuffer m ca n) s) fun bs t =>
        bs.length = n ∧ exec (.readDataBuffer m ca n) s = .next { t with responses := t.responses ++ [.ok (.bytes bs)] }

/-- `read_bbm_lookup_table` returns the decoded 80 bytes (R139). -/
def Obligations.LutReadResult : Prop :=
  ∀ s : State, s.life = .attached →
    AfterPreflight s (exec .readBbmLookupTable s) fun s1 =>
      AfterCall callReadBbmLut s1 (exec .readBbmLookupTable s) fun bs t =>
        bs.length = 80 ∧
          exec .readBbmLookupTable s = .next { t with responses := t.responses ++ [.ok (.lut (decodeLut bs))] }

/-- The decoded table has 20 slots in slot order; a slot is absent exactly when its logical and physical halves are both
0, and otherwise holds them, each most-significant byte first (R137, R138). -/
def Obligations.LutSlots : Prop :=
  ∀ raw : List Byte, (decodeLut raw).length = 20 ∧
    ∀ (i : Nat) (a b c d : Byte), i < 20 → (raw.drop (4 * i)).take 4 = [a, b, c, d] →
      ∃ lo ph : Word, lo.toNat = 256 * a.toNat + b.toNat ∧ ph.toNat = 256 * c.toNat + d.toNat ∧
        (decodeLut raw)[i]? = some (if lo = 0 ∧ ph = 0 then none else some (lo, ph))

/-- `enable_write` (R121) and `disable_write` (R122): the mode changes when the command is accepted, and only then; in the
other mode they are refused. -/
def Obligations.ModeTransitions : Prop :=
  ∀ s : State, s.life = .attached →
    (s.mode = some .read →
      AfterPreflight s (exec .enableWrite s) (fun s1 =>
          AfterCall callWriteEnable s1 (exec .enableWrite s) fun _ t =>
            exec .enableWrite s = .next { t with mode := some .write, responses := t.responses ++ [.ok .unit] }) ∧
        exec .disableWrite s = .next { s with responses := s.responses ++ [.refused .wrongMode] }) ∧
      (s.mode = some .write →
        AfterPreflight s (exec .disableWrite s) (fun s1 =>
            AfterCall callWriteDisable s1 (exec .disableWrite s) fun _ t =>
              exec .disableWrite s = .next { t with mode := some .read, responses := t.responses ++ [.ok .unit] }) ∧
          exec .enableWrite s = .next { s with responses := s.responses ++ [.refused .wrongMode] })

/-- `erase_128kb_block` (R134): an accepted command has put `Read` mode in place before the post-check, which looks at
`erase_failure` alone. -/
def Obligations.BlockEraseResult : Prop :=
  ∀ (s : State) (pa : Word), s.life = .attached → s.mode = some .write →
    AfterPreflight s (exec (.erase128kbBlock pa) s) fun s1 =>
      AfterCall (callBlockErase (eraseAddress s.config.eraseAddressForm pa)) s1 (exec (.erase128kbBlock pa) s) fun _ s2 =>
        AfterCall (callReadRegister .status) { s2 with mode := some .read } (exec (.erase128kbBlock pa) s) fun bs t =>
          ∃ b, bs = [b] ∧ t.mode = some .read ∧
            exec (.erase128kbBlock pa) s =
              .next { t with
                responses := t.responses ++
                  [if (decodeStatus s.config.regLayout.status b).eraseFailure then .err .writeFailure else .ok .unit] }

/-- `load_to_data_buffer`, for every method, flag, column and legal payload: one load command, `Write` mode kept
(R135). -/
def Obligations.BufferLoadResult : Prop :=
  ∀ (s : State) (m : WriteMethod) (clear : Bool) (ca : Word) (data : List Byte),
    s.life = .attached → s.mode = some .write → 1 ≤ data.length → data.length ≤ s.config.maxXfer →
    AfterPreflight s (exec (.loadToDataBuffer m clear ca data) s) fun s1 =>
      AfterCall (callLoad m clear ca data) s1 (exec (.loadToDataBuffer m clear ca data) s) fun _ t =>
        t.mode = some .write ∧
          exec (.loadToDataBuffer m clear ca data) s = .next { t with responses := t.responses ++ [.ok .unit] }

/-- `write_data_buffer_to_memory` (R136): as block erase, its post-check looking at both failure bits. -/
def Obligations.ProgramExecuteResult : Prop :=
  ∀ (s : State) (pa : Word), s.life = .attached → s.mode = some .write →
    AfterPreflight s (exec (.writeDataBufferToMemory pa) s) fun s1 =>
      AfterCall (callProgramExecute pa) s1 (exec (.writeDataBufferToMemory pa) s) fun _ s2 =>
        AfterCall (callReadRegister .status) { s2 with mode := some .read } (exec (.writeDataBufferToMemory pa) s)
          fun bs t =>
            ∃ b, bs = [b] ∧ t.mode = some .read ∧
              exec (.writeDataBufferToMemory pa) s =
                .next { t with
                  responses := t.responses ++
                    [if (decodeStatus s.config.regLayout.status b).eraseFailure ||
                      (decodeStatus s.config.regLayout.status b).writeFailure then .err .writeFailure
                    else .ok .unit] }

/-- The mode effect of an operation that has one takes place exactly when its main command returned `Ok`, whatever comes
after; a refusal, a preflight that fails and a main command that fails leave the mode (R123). -/
def Obligations.ModeEffectFollowsTheMainCommand : Prop :=
  ∀ (i : Instr) (s t : State) (c : Call) (m : Mode), modeEffect s.config i = some (c, m) → exec i s = .next t →
    ∃ events, t.transcript = s.transcript ++ events ∧
      ((∃ bs, { call := c, result := .ok bs } ∈ events) → t.mode = some m) ∧
      ((∀ bs, { call := c, result := .ok bs } ∉ events) → t.mode = s.mode)

/-! Bus commands on their own. -/

/-- A bus command with no buffer operand, on an attached block, is its one transport call and nothing else: no response,
no change of mode (R68 to R76, R81; that it can stand alone is the model's, log entry 11). -/
def Obligations.ControlCommandsMakeTheirCall : Prop :=
  ∀ s : State, s.life = .attached →
    exec .cmdDeviceReset s = .next (transport callDeviceReset s).2 ∧
      exec .cmdJedecId s = .next (transport callJedecId s).2 ∧
      (∀ r, exec (.cmdReadRegister r) s = .next (transport (callReadRegister r) s).2) ∧
      (∀ r v, exec (.cmdWriteRegister r v) s = .next (transport (callWriteRegister r v) s).2) ∧
      exec .cmdWriteEnable s = .next (transport callWriteEnable s).2 ∧
      exec .cmdWriteDisable s = .next (transport callWriteDisable s).2 ∧
      (∀ ea, exec (.cmdBlockErase ea) s = .next (transport (callBlockErase ea) s).2) ∧
      (∀ pa, exec (.cmdPageDataRead pa) s = .next (transport (callPageDataRead pa) s).2) ∧
      (∀ pa, exec (.cmdProgramExecute pa) s = .next (transport (callProgramExecute pa) s).2) ∧
      exec .cmdReadBbmLut s = .next (transport callReadBbmLut s).2

/-- A load or fast-read command of a legal length, on an attached block, is its one transport call and nothing else (R77 to
R80, R82 to R86; log entry 11). -/
def Obligations.BufferCommandsMakeTheirCall : Prop :=
  ∀ (s : State) (ca : Word), s.life = .attached →
    (∀ data : List Byte, 1 ≤ data.length → data.length ≤ s.config.maxXfer →
        exec (.cmdLoadClearSingle ca data) s = .next (transport (callLoadClearSingle ca data) s).2 ∧
          exec (.cmdLoadRandomSingle ca data) s = .next (transport (callLoadRandomSingle ca data) s).2 ∧
          exec (.cmdLoadClearQuad ca data) s = .next (transport (callLoadClearQuad ca data) s).2 ∧
          exec (.cmdLoadRandomQuad ca data) s = .next (transport (callLoadRandomQuad ca data) s).2) ∧
      ∀ n : Nat, 1 ≤ n → n ≤ s.config.maxXfer →
        exec (.cmdFastRead ca n) s = .next (transport (callFastRead ca n) s).2 ∧
          exec (.cmdFastReadDualOutput ca n) s = .next (transport (callFastReadDualOutput ca n) s).2 ∧
          exec (.cmdFastReadQuadOutput ca n) s = .next (transport (callFastReadQuadOutput ca n) s).2 ∧
          exec (.cmdFastReadDualIO ca n) s = .next (transport (callFastReadDualIO ca n) s).2 ∧
          exec (.cmdFastReadQuadIO ca n) s = .next (transport (callFastReadQuadIO ca n) s).2

/-! Rules of the whole machine. -/

/-- The frame of every instruction: the request port, the lone command and the parameters are never written, and what the
transcript and the response port held stays. The lifecycle changes by `create` and `release` alone (R23), a wait in
progress is begun and ended by `wait_while_busy` alone. THE MODEL'S CHOICE (log entry 11): the lone command's field, and that
a bus command by itself writes no register of the block. -/
def Obligations.InstructionFrame : Prop :=
  ∀ (i : Instr) (s t : State), exec i s = .next t →
    t.requests = s.requests ∧ t.framed = s.framed ∧ t.config = s.config ∧
      (∃ events, t.transcript = s.transcript ++ events) ∧ (∃ rs, t.responses = s.responses ++ rs) ∧
      (i ≠ .create → i ≠ .release → t.life = s.life) ∧ (i ≠ .waitWhileBusy → t.activity = s.activity) ∧
      (i.isRequest = false → t.life = s.life ∧ t.mode = s.mode)

/-- `Write` mode is entered by `enable_write` alone and left for `Read` by `disable_write`, `erase_128kb_block` and
`write_data_buffer_to_memory` alone; otherwise the mode is written only where `create` and `release` begin and end it
(R24, R149). -/
def Obligations.ModeChangesOnlyByItsOperations : Prop :=
  ∀ (i : Instr) (s t : State), exec i s = .next t → t.mode ≠ s.mode →
    (i = .create ∧ s.life = .detached ∧ t.mode = some .read) ∨ (i = .release ∧ t.mode = none) ∨
      (i = .enableWrite ∧ s.mode = some .read ∧ t.mode = some .write) ∨
      ((i = .disableWrite ∨ (∃ pa, i = .erase128kbBlock pa) ∨ ∃ pa, i = .writeDataBufferToMemory pa) ∧
        s.mode = some .write ∧ t.mode = some .read)

/-- The block answers each request, in every state, with exactly one response; only a wait that stays in progress has none
yet (R22, R93, R140). This is what the block does: exec answers a refused request too, its refusal being the response (R22,
L2.3), and it is the machine's step that makes that a refusal outcome (R116, log entry 2). -/
def Obligations.OneResponsePerRequest : Prop :=
  ∀ (i : Instr) (s : State), i.isRequest = true →
    ∃ t, exec i s = .next t ∧
      ((∃ r, t.responses = s.responses ++ [r]) ∨
        (i = .waitWhileBusy ∧ t.activity = .waiting ∧ t.responses = s.responses))

/-- A failed transport call is its operation's last, and its error is the operation's result; the one exception is
`wait_while_busy`, which swallows it (R143, R147). -/
def Obligations.FailedCallEndsTheOperation : Prop :=
  ∀ (i : Instr) (s t : State), i.isRequest = true → i ≠ .waitWhileBusy → exec i s = .next t →
    ∃ events, t.transcript = s.transcript ++ events ∧ (∀ e ∈ events.dropLast, ∃ bs, e.result = .ok bs) ∧
      ∀ e u, events.getLast? = some e → e.result = .err u → t.responses = s.responses ++ [.err (mapError u)]

/-- When a wait ends with `Ok(())`, its last status read reported the chip free or failed, and nothing more is known
(R126). -/
def Obligations.WaitPostcondition : Prop :=
  ∀ s t : State, exec .waitWhileBusy s = .next t ∨ (s.activity = .waiting ∧ step s = .next t) →
    t.responses = s.responses ++ [.ok .unit] →
    ∃ e, t.transcript = s.transcript ++ [e] ∧ e.call = callReadRegister .status ∧
      ((∃ u, e.result = .err u) ∨ ∃ b, e.result = .ok [b] ∧ (decodeStatus s.config.regLayout.status b).deviceBusy = false)

/-- A wait has no bound: while the status reads report the chip busy it stays in progress, one read a step, with no
response (R125, R163). -/
def Obligations.WaitHasNoBound : Prop :=
  ∀ (k : Nat) (s : State) (b : Byte) (rest : List Answer), s.activity = .waiting →
    isBusy s.config.regLayout.status b = true →
    s.env = .script (List.replicate k (.ok [b]) ++ rest) →
    ∃ t, Host.Core.run core k s = .next t ∧ t.activity = .waiting ∧ t.responses = s.responses ∧
      t.transcript = s.transcript ++ List.replicate k ⟨callReadRegister .status, .ok [b]⟩

/-- What an operation does depends on no earlier call and no earlier response: with an older history before it, the same
instruction does the same (R28). The history is the model's record (log entry 14); the number of calls made so far, which
the environment's free values are applied to, is kept the same (log entry 4). -/
def Obligations.HistoryIsNeverRead : Prop :=
  ∀ (i : Instr) (s t : State) (events : List Event) (rs : List Response), exec i s = .next t →
    exec i (withEarlier events rs s) = .next (withEarlier events rs t)

/-- The response codes of the error kinds and of the refusals (R141, R144). -/
def Obligations.ResponseCodes : Prop :=
  (∀ v, responseCode (.ok v) = 0x00) ∧ responseCode (.err .deviceBusy) = 0x01 ∧
    responseCode (.err (mapError .busy)) = 0x02 ∧ responseCode (.err (mapError .address)) = 0x03 ∧
    responseCode (.err (mapError .unknown)) = 0x04 ∧ responseCode (.err .writeFailure) = 0x05 ∧
    responseCode (.refused .notAttached) = 0x80 ∧ responseCode (.refused .alreadyAttached) = 0x81 ∧
    responseCode (.refused .unknownOperation) = 0x82 ∧ responseCode (.refused .badOperand) = 0x83 ∧
    responseCode (.refused .wrongMode) = 0x84

/-! The reference device (environment, not block). -/

/-- A page load writes its payload at the column; with clear every other byte of the buffer becomes the erased value, without
it every other byte stays; the pages are untouched (R62). This is the reference device's, THE MODEL'S CHOICE (log entry 13): it
takes a load when it is free (R60), write-enabled (R61) and the payload fits the buffer (R49). -/
def Obligations.DeviceLoadWritesTheBuffer : Prop :=
  ∀ (l : RegLayout) (m : WriteMethod) (clear : Bool) (ca : Word) (data : List Byte) (chip : Chip) (x : Nat), chipWf chip →
    chip.busyReads = 0 → chip.writeEnabled = true → ca.toNat + data.length ≤ 2112 →
    ∃ chip', chipAnswer l (callLoad m clear ca data) chip = some ([], chip') ∧ chip'.pages = chip.pages ∧
      Memory.read chip.erased chip'.buffer x =
        if ca.toNat ≤ x ∧ x < ca.toNat + data.length then data.getD (x - ca.toNat) 0
        else if clear then chip.erased else Memory.read chip.erased chip.buffer x

/-- Program execute on the free, write-enabled device commits the buffer to the addressed page and leaves every other
address of the page array as it was; a page data read, once the device is free again, stages those bytes, and its ECC outcome
is what a status read then decodes to (R64); and a fast read of any method then returns the bytes, in buffered read mode and
within the buffer (R63). The reference device is THE MODEL'S CHOICE (log entry 13). -/
def Obligations.DeviceProgramStageRead : Prop :=
  ∀ (l : RegLayout) (pa : Word) (chip : Chip), chip.busyReads = 0 → chip.writeEnabled = true →
    ∃ c1 c2, chipAnswer l (callProgramExecute pa) chip = some ([], c1) ∧
      chipAnswer l (callPageDataRead pa) { c1 with busyReads := 0 } = some ([], c2) ∧
      (∀ x, x < 2112 →
        Memory.read chip.erased c1.pages (pageBase pa + x) = Memory.read chip.erased chip.buffer x ∧
          Memory.read chip.erased c2.buffer x = Memory.read chip.erased chip.buffer x) ∧
      (∀ x, x < pageBase pa ∨ pageBase pa + 2112 ≤ x →
        Memory.read chip.erased c1.pages x = Memory.read chip.erased chip.pages x) ∧
      (l.status.Distinct →
        ∃ b c3, chipAnswer l (callReadRegister .status) c2 = some ([b], c3) ∧
          (decodeStatus l.status b).eccStatus = chip.eccOutcomes.headD .successful) ∧
      ∀ (m : ReadMethod) (ca : Word) (n : Nat), (decodeConfiguration l.configuration chip.configuration).buf = true →
        ca.toNat + n ≤ 2112 →
        ∃ bs, chipAnswer l (callRead m ca n) { c2 with busyReads := 0 } = some (bs, { c2 with busyReads := 0 }) ∧
          bs.length = n ∧ ∀ j, j < n → bs[j]? = some (Memory.read chip.erased chip.buffer (ca.toNat + j))

/-- Block erase on the free, write-enabled device: every byte of the 64 pages of the block that contains the addressed page
reads as the erased value, and every other byte of the page array as before; the latch is clear (R61, R63). The reference
device is THE MODEL'S CHOICE (log entry 13). -/
def Obligations.DeviceEraseClearsTheBlock : Prop :=
  ∀ (l : RegLayout) (ea : Word) (chip : Chip), chip.busyReads = 0 → chip.writeEnabled = true →
    ∃ c1, chipAnswer l (callBlockErase ea) chip = some ([], c1) ∧ c1.writeEnabled = false ∧
      ∀ p x : Nat, x < 2112 →
        Memory.read chip.erased c1.pages (2112 * p + x) =
          if p / 64 = ea.toNat / 64 then chip.erased else Memory.read chip.erased chip.pages (2112 * p + x)

/-- The device's frame: the page array is written by erase and program execute alone, the buffer by the loads and the page
data read alone, the ECC bits by the page data read alone, a register by its own write alone, the latch by write enable, write
disable, erase and program execute alone; the table with its full bit, the reserved status bits, the identification and the
erased value by nothing. A fast read within the buffer is always answered and leaves the whole device as it is, in buffered and
in continuous read mode (R52; log entry 13). -/
def Obligations.DeviceFrame : Prop :=
  (∀ (l : RegLayout) (c : Call) (i : Instr) (chip chip' : Chip) (bs : List Byte),
      decodeCall c = some i → chipAnswer l c chip = some (bs, chip') →
      ((∀ ea, i ≠ .cmdBlockErase ea) → (∀ pa, i ≠ .cmdProgramExecute pa) → chip'.pages = chip.pages) ∧
        ((∀ pa, i ≠ .cmdPageDataRead pa) → (∀ m clear ca data, c ≠ callLoad m clear ca data) →
          chip'.buffer = chip.buffer) ∧
        ((∀ pa, i ≠ .cmdPageDataRead pa) → chip'.ecc0 = chip.ecc0 ∧ chip'.ecc1 = chip.ecc1) ∧
        ((∀ v, i ≠ .cmdWriteRegister .protection v) → chip'.protection = chip.protection) ∧
        ((∀ v, i ≠ .cmdWriteRegister .configuration v) → chip'.configuration = chip.configuration) ∧
        (i ≠ .cmdWriteEnable → i ≠ .cmdWriteDisable → (∀ ea, i ≠ .cmdBlockErase ea) →
          (∀ pa, i ≠ .cmdProgramExecute pa) → chip'.writeEnabled = chip.writeEnabled) ∧
        chip'.lut = chip.lut ∧ chip'.lutFull = chip.lutFull ∧ chip'.statusReserved = chip.statusReserved ∧
        chip'.jedecId = chip.jedecId ∧ chip'.erased = chip.erased) ∧
    ∀ (l : RegLayout) (m : ReadMethod) (ca : Word) (n : Nat) (chip : Chip), ca.toNat + n ≤ 2112 →
      ∃ bs, chipAnswer l (callRead m ca n) chip = some (bs, chip)

/-- A busy device ignores every command but a status read (R60); that a device reset is ignored too is THE MODEL'S CHOICE,
as the device is (log entry 13). -/
def Obligations.BusyDeviceIgnoresCommands : Prop :=
  ∀ (l : RegLayout) (i : Instr) (c : Call) (chip : Chip), 0 < chip.busyReads → decodeCall c = some i →
    i ≠ .cmdReadRegister .status → chipAnswer l c chip = some ([], chip)
end

