-- ==== Sys2Proof/Laws/Codec.lean ====
section
/-! SUPPORT. The register codec and the byte-order helpers. -/

namespace Sys2Proof.Machine

/-- A placed field is seen at its own bit and nowhere else. -/
theorem bitOf_bitAt (v : Bool) (i j : Fin 8) : bitOf (bitAt v i) j = (v && decide (i = j)) := by
  revert v i j; decide

theorem bitOf_or (a b : Byte) (j : Fin 8) : bitOf (a ||| b) j = (bitOf a j || bitOf b j) := by
  simp [bitOf]

/-- The low byte and the high byte put together are the word again. -/
@[simp] theorem wordOf_bytes (v : Word) : wordOf (highByte v) (lowByte v) = v := by
  simp only [wordOf, highByte, lowByte]
  ext i hi
  simp only [BitVec.getElem_or, BitVec.getElem_shiftLeft, BitVec.getElem_setWidth, BitVec.getLsbD_extractLsb']
  by_cases h : i < 8
  · simp [h, BitVec.getLsbD_eq_getElem hi]
  · simp only [h, decide_false, Bool.not_false, Bool.true_and, Bool.false_and, Bool.or_false]
    have h1 : i - 8 < 8 := by omega
    have h2 : 8 + (i - 8) = i := by omega
    simp [h1, h2, BitVec.getLsbD_eq_getElem hi]

theorem wordOf_toNat (hi lo : Byte) : (wordOf hi lo).toNat = 256 * hi.toNat + lo.toNat := by
  have h1 := hi.isLt
  have h2 := lo.isLt
  have e : hi.zeroExtend 16 <<< 8 &&& lo.zeroExtend 16 = (0 : Word) := by
    ext i h
    by_cases h8 : i < 8
    · simp [h8]
    · have : lo.getLsbD i = false := BitVec.getLsbD_of_ge lo i (by omega)
      simp [this]
  rw [wordOf, ← BitVec.add_eq_or_of_and_eq_zero _ _ e]
  simp only [BitVec.truncate_eq_setWidth, BitVec.toNat_add, BitVec.toNat_shiftLeft, BitVec.toNat_setWidth,
    Nat.shiftLeft_eq]
  omega

theorem word_toNat_split (v : Word) : v.toNat = 256 * (highByte v).toNat + (lowByte v).toNat := by
  conv_lhs => rw [← wordOf_bytes v]
  exact wordOf_toNat _ _

@[simp] theorem ofNat_toNat_of_lt {n : Nat} (h : n < 65536) : (BitVec.ofNat 16 n).toNat = n := by
  simpa using Nat.mod_eq_of_lt h

@[simp] theorem readMethodOf_code (m : ReadMethod) : readMethodOf (readMethodCode m) = some m := by
  cases m <;> rfl

@[simp] theorem writeMethodOf_code (m : WriteMethod) : writeMethodOf (writeMethodCode m) = some m := by
  cases m <;> rfl

@[simp] theorem boolOf_code (v : Bool) : boolOf (boolCode v) = some v := by
  cases v <;> rfl

@[simp] theorem registerAt_subAddress (r : ChipRegister) : registerAt (subAddress r) = some r := by
  cases r <;> rfl

@[simp] theorem lowByte_subAddress (r : ChipRegister) : lowByte (subPhase (subAddress r)).value = subAddress r := by
  cases r <;> decide

@[simp] theorem writableAt_subAddress (r : WritableRegister) :
    writableAt (subAddress (chipRegisterOf r)) = some r := by
  cases r <;> rfl

/-- The bits of an outcome decode to it. -/
@[simp] theorem eccDecode_bits (e : EccStatus) : eccDecode (eccBits e).1 (eccBits e).2 = e := by
  cases e <;> rfl

end Sys2Proof.Machine
end

