-- ==== Sys2Proof/Laws/Memory.lean ====
section
/-! SUPPORT. The memories of the reference device: every operation keeps the canonical form, and what a read sees after
it. -/

namespace Sys2Proof.Machine.Memory

/-! Canonical form. -/

theorem wf_nil (d : Byte) : wf d [] := by simp [wf]

theorem wf_cons {d : Byte} {c : Host.Cell} {m : Memory} (h : wf d (c :: m)) :
    (∀ p ∈ m, c.1 < p.1) ∧ c.2 ≠ d ∧ wf d m := by
  obtain ⟨h1, h2⟩ := h
  rw [List.pairwise_cons] at h1
  exact ⟨h1.1, h2 c (by simp), h1.2, fun p hp => h2 p (by simp [hp])⟩

theorem wf_of_cons {d : Byte} {c : Host.Cell} {m : Memory} (h1 : ∀ p ∈ m, c.1 < p.1) (h2 : c.2 ≠ d) (h3 : wf d m) :
    wf d (c :: m) := by
  refine ⟨List.pairwise_cons.mpr ⟨h1, h3.1⟩, fun p hp => ?_⟩
  rcases List.mem_cons.mp hp with rfl | hp
  · exact h2
  · exact h3.2 p hp

/-- Every address a write leaves listed was listed before or is the address written. -/
theorem write_mem {d : Byte} {m : Memory} {x : Nat} {v : Byte} {p : Host.Cell} (h : p ∈ write d m x v) :
    p ∈ m ∨ p.1 = x := by
  induction m with
  | nil =>
    simp only [write] at h
    split at h <;> simp_all
  | cons c m ih =>
    obtain ⟨a, b⟩ := c
    simp only [write] at h
    split at h
    · split at h
      · exact .inl h
      · rcases List.mem_cons.mp h with rfl | h
        · exact .inr rfl
        · exact .inl h
    · split at h
      · split at h
        · exact .inl (List.mem_cons_of_mem _ h)
        · rcases List.mem_cons.mp h with rfl | h
          · exact .inr rfl
          · exact .inl (List.mem_cons_of_mem _ h)
      · rcases List.mem_cons.mp h with rfl | h
        · exact .inl (by simp)
        · rcases ih h with h | h
          · exact .inl (List.mem_cons_of_mem _ h)
          · exact .inr h

theorem write_wf {d : Byte} {m : Memory} {x : Nat} {v : Byte} (h : wf d m) : wf d (write d m x v) := by
  induction m with
  | nil =>
    simp only [write]
    split
    · exact h
    · exact wf_of_cons (by simp) ‹_› (wf_nil d)
  | cons c m ih =>
    obtain ⟨a, b⟩ := c
    obtain ⟨h1, h2, h3⟩ := wf_cons h
    simp only [write]
    split
    · split
      · exact h
      · refine wf_of_cons (fun p hp => ?_) ‹_› h
        rcases List.mem_cons.mp hp with rfl | hp
        · assumption
        · exact Nat.lt_trans ‹_› (h1 p hp)
    · split
      · split
        · exact h3
        · refine wf_of_cons (fun p hp => ?_) ‹_› h3
          subst x
          exact h1 p hp
      · refine wf_of_cons (fun p hp => ?_) h2 (ih h3)
        rcases write_mem hp with hp | hp
        · exact h1 p hp
        · show a < p.1
          omega

theorem writeBytes_wf {d : Byte} {m : Memory} {x : Nat} {bs : List Byte} (h : wf d m) : wf d (writeBytes d m x bs) := by
  induction bs generalizing m x with
  | nil => exact h
  | cons b bs ih => exact ih (write_wf h)

theorem filter_wf {d : Byte} {m : Memory} (f : Host.Cell → Bool) (h : wf d m) : wf d (m.filter f) :=
  ⟨h.1.filter f, fun c hc => h.2 c (List.mem_filter.mp hc).1⟩

theorem erase_wf {d : Byte} {m : Memory} (lo n : Nat) (h : wf d m) : wf d (erase m lo n) := filter_wf _ h

theorem slice_wf {d : Byte} {m : Memory} (lo n : Nat) (h : wf d m) : wf d (slice m lo n) := by
  have hf := filter_wf (fun c => decide (lo ≤ c.1) && decide (c.1 < lo + n)) h
  refine ⟨?_, ?_⟩
  · unfold slice
    rw [List.pairwise_map]
    refine List.Pairwise.imp_of_mem (fun {a b} ha hb hab => ?_) hf.1
    have h1 := (List.mem_filter.mp ha).2
    have h2 := (List.mem_filter.mp hb).2
    simp only [Bool.and_eq_true, decide_eq_true_eq] at h1 h2
    show a.1 - lo < b.1 - lo
    omega
  · intro c hc
    obtain ⟨p, hp, rfl⟩ := List.mem_map.mp hc
    exact hf.2 p hp

theorem paste_wf {d : Byte} {m src : Memory} (lo n : Nat) (h : wf d m) (hs : wf d src) : wf d (paste m lo n src) := by
  have h1 := filter_wf (fun c => decide (c.1 < lo)) h
  have h2 := filter_wf (fun c => decide (c.1 < n)) hs
  have h3 := filter_wf (fun c => decide (lo + n ≤ c.1)) h
  refine ⟨?_, ?_⟩
  · unfold paste
    refine List.pairwise_append.mpr ⟨h1.1, List.pairwise_append.mpr ⟨?_, h3.1, ?_⟩, ?_⟩
    · rw [List.pairwise_map]
      refine h2.1.imp (fun {a b} hab => ?_)
      show a.1 + lo < b.1 + lo
      omega
    · intro a ha b hb
      obtain ⟨p, hp, rfl⟩ := List.mem_map.mp ha
      have hp := (List.mem_filter.mp hp).2
      have hb := (List.mem_filter.mp hb).2
      simp only [decide_eq_true_eq] at hp hb
      show p.1 + lo < b.1
      omega
    · intro a ha b hb
      have ha := (List.mem_filter.mp ha).2
      simp only [decide_eq_true_eq] at ha
      rcases List.mem_append.mp hb with hb | hb
      · obtain ⟨p, -, rfl⟩ := List.mem_map.mp hb
        show a.1 < p.1 + lo
        omega
      · have hb := (List.mem_filter.mp hb).2
        simp only [decide_eq_true_eq] at hb
        omega
  · intro c hc
    rcases List.mem_append.mp hc with hc | hc
    · exact h1.2 c hc
    · rcases List.mem_append.mp hc with hc | hc
      · obtain ⟨p, hp, rfl⟩ := List.mem_map.mp hc
        exact h2.2 p hp
      · exact h3.2 c hc

/-! Reads. -/

theorem read_cons (d : Byte) (c : Host.Cell) (m : Memory) (x : Nat) :
    read d (c :: m) x = if x = c.1 then c.2 else read d m x := by
  obtain ⟨a, b⟩ := c; rfl

/-- An address below every listed one reads as the erased value. -/
theorem read_unlisted {d : Byte} {m : Memory} {x : Nat} (h : ∀ p ∈ m, p.1 ≠ x) : read d m x = d := by
  induction m with
  | nil => rfl
  | cons c m ih =>
    rw [read_cons, if_neg (fun e => h c (by simp) e.symm), ih (fun p hp => h p (by simp [hp]))]

/-- A read after a write: the value at the address written, and every other address as before. -/
theorem read_write {d : Byte} {m : Memory} (h : wf d m) (x y : Nat) (v : Byte) :
    read d (write d m x v) y = if y = x then v else read d m y := by
  induction m with
  | nil =>
    simp only [write]
    split
    · subst v; simp [read]
    · simp [read]
  | cons c m ih =>
    obtain ⟨a, b⟩ := c
    obtain ⟨h1, -, h3⟩ := wf_cons h
    simp only [write]
    split
    · split
      · subst v
        split
        · subst y
          rw [read_unlisted]
          intro p hp
          rcases List.mem_cons.mp hp with rfl | hp
          · show a ≠ x
            omega
          · have := h1 p hp
            simp only at this
            omega
        · rfl
      · rw [read_cons]
    · split
      · subst x
        split
        · subst v
          rw [read_cons]
          split
          · subst y
            exact read_unlisted fun p hp => Nat.ne_of_gt (h1 p hp)
          · rfl
        · simp only [read_cons]
          split <;> simp_all
      · rw [read_cons, ih h3, read_cons]
        by_cases e : y = x
        · subst y
          rw [if_neg ‹_›]
          simp
        · simp [e]

theorem read_filter {d : Byte} (f : Nat → Bool) (m : Memory) (x : Nat) :
    read d (m.filter fun c => f c.1) x = if f x then read d m x else d := by
  induction m with
  | nil => simp [read]
  | cons c m ih =>
    rw [List.filter_cons]
    split
    · rw [read_cons, ih, read_cons]
      split
      · subst x; simp [*]
      · rfl
    · rw [ih, read_cons]
      split
      · split
        · subst x; contradiction
        · rfl
      · rfl

theorem read_append (d : Byte) (m n : Memory) (x : Nat) (h : ∀ p ∈ m, p.1 ≠ x) :
    read d (m ++ n) x = read d n x := by
  induction m with
  | nil => rfl
  | cons c m ih =>
    rw [List.cons_append, read_cons, if_neg (fun e => h c (by simp) e.symm), ih fun p hp => h p (by simp [hp])]

theorem read_append_left (d : Byte) (m n : Memory) (x : Nat) (h : ∀ p ∈ n, p.1 ≠ x) :
    read d (m ++ n) x = read d m x := by
  induction m with
  | nil => exact read_unlisted h
  | cons c m ih => rw [List.cons_append, read_cons, read_cons, ih]

theorem read_map_add (d : Byte) (m : Memory) (lo x : Nat) :
    read d (m.map fun c => (c.1 + lo, c.2)) (x + lo) = read d m x := by
  induction m with
  | nil => rfl
  | cons c m ih =>
    rw [List.map_cons, read_cons, read_cons, ih]
    simp

/-- What erasing a range leaves. -/
theorem read_erase (d : Byte) (m : Memory) (lo n x : Nat) :
    read d (erase m lo n) x = if lo ≤ x ∧ x < lo + n then d else read d m x := by
  have h := read_filter (d := d) (fun a => !(decide (lo ≤ a) && decide (a < lo + n))) m x
  simp only [erase]
  rw [h]
  by_cases h1 : lo ≤ x <;> by_cases h2 : x < lo + n <;> simp [h1, h2]

/-- A slice reads, below its size, as the memory above its start. -/
theorem read_slice (d : Byte) (m : Memory) (lo n x : Nat) (h : x < n) :
    read d (slice m lo n) x = read d m (lo + x) := by
  unfold slice
  induction m with
  | nil => rfl
  | cons c m ih =>
    rw [List.filter_cons]
    split
    · rename_i hc
      simp only [Bool.and_eq_true, decide_eq_true_eq] at hc
      rw [List.map_cons, read_cons, read_cons, ih]
      simp only
      by_cases e : x = c.1 - lo
      · have : lo + x = c.1 := by omega
        simp [e]
        omega
      · have : lo + x ≠ c.1 := by omega
        simp [e, this]
    · rename_i hc
      rw [ih, read_cons, if_neg]
      intro e
      simp only [Bool.and_eq_true, decide_eq_true_eq] at hc
      omega

/-- Pasting: inside the range the source's bytes, outside it the memory's. -/
theorem read_paste (d : Byte) (m src : Memory) (lo n x : Nat) :
    read d (paste m lo n src) x = if lo ≤ x ∧ x < lo + n then read d src (x - lo) else read d m x := by
  have hb := read_filter (d := d) (fun a => decide (a < lo)) m x
  have ha := read_filter (d := d) (fun a => decide (lo + n ≤ a)) m x
  have hs := read_filter (d := d) (fun a => decide (a < n)) src (x - lo)
  unfold paste
  by_cases h1 : x < lo
  · rw [read_append_left, hb]
    · have : ¬ lo ≤ x := by omega
      simp [h1, this]
    · intro p hp
      rcases List.mem_append.mp hp with hp | hp
      · obtain ⟨q, -, rfl⟩ := List.mem_map.mp hp
        show q.1 + lo ≠ x
        omega
      · have := (List.mem_filter.mp hp).2
        simp only [decide_eq_true_eq] at this
        omega
  · rw [read_append]
    · by_cases h2 : x < lo + n
      · rw [read_append_left]
        · have e : x = (x - lo) + lo := by omega
          conv_lhs => rw [e]
          rw [read_map_add, hs]
          have h3 : x - lo < n := by omega
          have h4 : lo ≤ x := by omega
          simp [h2, h3, h4]
        · intro p hp
          have := (List.mem_filter.mp hp).2
          simp only [decide_eq_true_eq] at this
          omega
      · rw [read_append, ha]
        · have h3 : lo + n ≤ x := by omega
          simp [h2, h3]
        · intro p hp
          obtain ⟨q, hq, rfl⟩ := List.mem_map.mp hp
          have := (List.mem_filter.mp hq).2
          simp only [decide_eq_true_eq] at this
          show q.1 + lo ≠ x
          omega
    · intro p hp
      have := (List.mem_filter.mp hp).2
      simp only [decide_eq_true_eq] at this
      omega

theorem readBytes_length (d : Byte) (m : Memory) (x n : Nat) : (readBytes d m x n).length = n := by
  induction n generalizing x with
  | zero => rfl
  | succ n ih => simp [readBytes, ih]

/-- Byte `j` of a read from `x` on is the byte at `x + j`. -/
theorem readBytes_getElem? (d : Byte) (m : Memory) (x n j : Nat) (h : j < n) :
    (readBytes d m x n)[j]? = some (read d m (x + j)) := by
  induction n generalizing x j with
  | zero => omega
  | succ n ih =>
    cases j with
    | zero => simp [readBytes]
    | succ j =>
      simp only [readBytes, List.getElem?_cons_succ]
      rw [ih (x + 1) j (by omega)]
      congr 2
      omega

end Sys2Proof.Machine.Memory
end

