-- ==== Sys2Proof/Laws/Chip.lean ====
section
/-! SUPPORT. The reference device keeps its memories canonical, and what its status byte shows. -/

namespace Sys2Proof.Machine

open Memory

/-! The status byte. -/

theorem bitOf_bitMask (bits : List (Fin 8)) (j : Fin 8) : bitOf (bitMask bits) j = decide (j ∈ bits) := by
  induction bits with
  | nil => simp [bitMask, bitOf]
  | cons i bits ih =>
    rw [show bitMask (i :: bits) = bitAt true i ||| bitMask bits from rfl, bitOf_or, bitOf_bitAt, ih]
    simp [eq_comm]

/-- The reserved part of a byte shows in no bit that holds a field. -/
theorem bitOf_reserved {bits : List (Fin 8)} {j : Fin 8} (b : Byte) (h : j ∈ bits) :
    bitOf (b &&& ~~~bitMask bits) j = false := by
  have hm : bitOf (bitMask bits) j = true := by simp [bitOf_bitMask, h]
  simp only [bitOf] at hm ⊢
  simp [hm]

/-- Decoding the status byte gives the device's own bits back, whatever its reserved bits show. -/
theorem decodeStatus_statusByte {l : StatusLayout} (h : l.Distinct) (chip : Chip) :
    decodeStatus l (statusByte l chip) =
      { deviceBusy := decide (0 < chip.busyReads), writeEnableLatch := chip.writeEnabled
        eraseFailure := chip.eraseFailure, writeFailure := chip.writeFailure
        eccStatus := eccDecode chip.ecc0 chip.ecc1, bbmLutFull := chip.lutFull } := by
  simp only [StatusLayout.Distinct, StatusLayout.bits, List.nodup_cons, List.mem_cons, not_or, List.not_mem_nil,
    not_false_eq_true, List.nodup_nil, and_true] at h
  simp only [decodeStatus, statusByte, bitOf_or, bitOf_bitAt, StatusRegister.mk.injEq]
  rw [bitOf_reserved _ (by simp), bitOf_reserved _ (by simp), bitOf_reserved _ (by simp), bitOf_reserved _ (by simp),
    bitOf_reserved _ (by simp), bitOf_reserved _ (by simp), bitOf_reserved _ (by simp)]
  simp [h, eq_comm]

/-! Canonical memories. -/

theorem chipStart_wf {chip : Chip} (h : chipWf chip) : chipWf (chipStart chip) := h

theorem chipErase_wf {ea : Word} {chip : Chip} (h : chipWf chip) : chipWf (chipErase ea chip) :=
  ⟨erase_wf _ _ h.1, h.2⟩

theorem chipProgram_wf {pa : Word} {chip : Chip} (h : chipWf chip) : chipWf (chipProgram pa chip) :=
  ⟨paste_wf _ _ h.1 h.2, h.2⟩

theorem chipStage_wf {pa : Word} {chip : Chip} (h : chipWf chip) : chipWf (chipStage pa chip) :=
  ⟨h.1, slice_wf _ _ h.1⟩

theorem chipLoad_wf {clear : Bool} {ca : Word} {data : List Byte} {chip : Chip} (h : chipWf chip) :
    chipWf (chipLoad clear ca data chip) := by
  refine ⟨h.1, writeBytes_wf ?_⟩
  split
  · exact wf_nil _
  · exact h.2

theorem chipGuardedLoad_wf {clear : Bool} {ca : Word} {data bs : List Byte} {chip chip' : Chip} (h : chipWf chip)
    (he : chipGuardedLoad clear ca data chip = some (bs, chip')) : chipWf chip' := by
  unfold chipGuardedLoad at he
  split at he
  · cases he; exact h
  · split at he
    · cases he; exact chipLoad_wf h
    · cases he

/-- A fast read within the buffer is answered, in both read modes. -/
theorem chipFastRead_within {ca : Word} {n : Nat} (h : ca.toNat + n ≤ 2112) (l : ConfigurationLayout) (chip : Chip) :
    chipFastRead l ca n chip =
      some
        (if (decodeConfiguration l chip.configuration).buf then Memory.readBytes chip.erased chip.buffer ca.toNat n else [],
          chip) :=
  if_pos h

/-- A fast read leaves the device as it is. -/
theorem chipFastRead_keeps {l : ConfigurationLayout} {ca : Word} {n : Nat} {bs : List Byte} {chip chip' : Chip}
    (he : chipFastRead l ca n chip = some (bs, chip')) : chip' = chip := by
  unfold chipFastRead at he
  split at he
  · cases he; rfl
  · cases he

theorem chipFastRead_wf {l : ConfigurationLayout} {ca : Word} {n : Nat} {bs : List Byte} {chip chip' : Chip}
    (h : chipWf chip) (he : chipFastRead l ca n chip = some (bs, chip')) : chipWf chip' := by
  rw [chipFastRead_keeps he]; exact h

/-- Whatever the command, the device's memories stay canonical. -/
theorem chipPerform_wf {l : RegLayout} {i : Instr} {bs : List Byte} {chip chip' : Chip} (h : chipWf chip)
    (he : chipPerform l i chip = some (bs, chip')) : chipWf chip' := by
  cases i with
  | cmdReadRegister r => cases r <;> (cases he; exact h)
  | cmdWriteRegister r v => cases r <;> (cases he; exact h)
  | cmdBlockErase ea =>
    cases he
    split
    · exact chipErase_wf h
    · exact h
  | cmdProgramExecute pa =>
    cases he
    split
    · exact chipProgram_wf h
    · exact h
  | cmdPageDataRead pa => cases he; exact chipStage_wf h
  | cmdLoadClearSingle ca data => exact chipGuardedLoad_wf h he
  | cmdLoadRandomSingle ca data => exact chipGuardedLoad_wf h he
  | cmdLoadClearQuad ca data => exact chipGuardedLoad_wf h he
  | cmdLoadRandomQuad ca data => exact chipGuardedLoad_wf h he
  | cmdFastRead ca n => exact chipFastRead_wf h he
  | cmdFastReadDualOutput ca n => exact chipFastRead_wf h he
  | cmdFastReadQuadOutput ca n => exact chipFastRead_wf h he
  | cmdFastReadDualIO ca n => exact chipFastRead_wf h he
  | cmdFastReadQuadIO ca n => exact chipFastRead_wf h he
  | _ => cases he <;> exact h

theorem chipAnswer_wf {l : RegLayout} {c : Call} {bs : List Byte} {chip chip' : Chip} (h : chipWf chip)
    (he : chipAnswer l c chip = some (bs, chip')) : chipWf chip' := by
  unfold chipAnswer at he
  split at he
  · exact chipPerform_wf h he
  · split at he
    · cases he; exact h
    · exact chipPerform_wf h he
  · cases he

end Sys2Proof.Machine
end

