-- ==== Sys2Proof/Laws/Decode.lean ====
section
/-! SUPPORT. What a decoder that answers an instruction has checked. -/

namespace Sys2Proof.Machine

/-- A call is accepted only as the one its rule builds. -/
theorem ifBuilt_some {c e : Call} {i j : Instr} (h : ifBuilt c e i = some j) : c = e ∧ i = j := by
  unfold ifBuilt at h
  split at h
  · exact ⟨‹_›, Option.some.inj h⟩
  · cases h

theorem ifBuilt_self (c : Call) (i : Instr) : ifBuilt c c i = some i := by
  simp [ifBuilt]

/-- The sub-address of a writable register is read back as that register's. -/
theorem writableAt_some {b : Byte} {r : WritableRegister} (h : writableAt b = some r) :
    b = subAddress (chipRegisterOf r) := by
  unfold writableAt at h
  split at h
  · cases h; assumption
  · split at h
    · cases h; assumption
    · cases h

theorem registerAt_some {b : Byte} {r : ChipRegister} (h : registerAt b = some r) : b = subAddress r := by
  unfold registerAt at h
  split at h
  · cases h; assumption
  · split at h
    · cases h; assumption
    · split at h
      · cases h; assumption
      · cases h

/-! The calls the requests build decode to their commands. -/

theorem decodeCall_readRegister (r : ChipRegister) : decodeCall (callReadRegister r) = some (.cmdReadRegister r) := by
  cases r <;> decide

theorem decodeCall_writeRegister (r : WritableRegister) (v : Byte) :
    decodeCall (callWriteRegister r v) = some (.cmdWriteRegister r v) := by
  cases r <;>
    simp [decodeCall, decodeWriteCall, callWriteRegister, descOf, ifBuilt, subAddress, chipRegisterOf, writableAt]

theorem decodeCall_deviceReset : decodeCall callDeviceReset = some .cmdDeviceReset := by decide

theorem decodeCall_jedecId : decodeCall callJedecId = some .cmdJedecId := by decide

theorem decodeCall_writeEnable : decodeCall callWriteEnable = some .cmdWriteEnable := by decide

theorem decodeCall_writeDisable : decodeCall callWriteDisable = some .cmdWriteDisable := by decide

theorem decodeCall_readBbmLut : decodeCall callReadBbmLut = some .cmdReadBbmLut := by decide

theorem decodeCall_blockErase (ea : Word) : decodeCall (callBlockErase ea) = some (.cmdBlockErase ea) :=
  ifBuilt_self _ _

theorem decodeCall_pageDataRead (pa : Word) : decodeCall (callPageDataRead pa) = some (.cmdPageDataRead pa) :=
  ifBuilt_self _ _

theorem decodeCall_programExecute (pa : Word) :
    decodeCall (callProgramExecute pa) = some (.cmdProgramExecute pa) := ifBuilt_self _ _

theorem decodeCall_loadClearSingle (ca : Word) (data : List Byte) :
    decodeCall (callLoadClearSingle ca data) = some (.cmdLoadClearSingle ca data) := ifBuilt_self _ _

theorem decodeCall_loadRandomSingle (ca : Word) (data : List Byte) :
    decodeCall (callLoadRandomSingle ca data) = some (.cmdLoadRandomSingle ca data) := ifBuilt_self _ _

theorem decodeCall_loadClearQuad (ca : Word) (data : List Byte) :
    decodeCall (callLoadClearQuad ca data) = some (.cmdLoadClearQuad ca data) := ifBuilt_self _ _

theorem decodeCall_loadRandomQuad (ca : Word) (data : List Byte) :
    decodeCall (callLoadRandomQuad ca data) = some (.cmdLoadRandomQuad ca data) := ifBuilt_self _ _

theorem decodeCall_fastRead (ca : Word) (n : Nat) : decodeCall (callFastRead ca n) = some (.cmdFastRead ca n) :=
  ifBuilt_self _ _

theorem decodeCall_fastReadDualOutput (ca : Word) (n : Nat) :
    decodeCall (callFastReadDualOutput ca n) = some (.cmdFastReadDualOutput ca n) := ifBuilt_self _ _

theorem decodeCall_fastReadQuadOutput (ca : Word) (n : Nat) :
    decodeCall (callFastReadQuadOutput ca n) = some (.cmdFastReadQuadOutput ca n) := ifBuilt_self _ _

theorem decodeCall_fastReadDualIO (ca : Word) (n : Nat) :
    decodeCall (callFastReadDualIO ca n) = some (.cmdFastReadDualIO ca n) := ifBuilt_self _ _

theorem decodeCall_fastReadQuadIO (ca : Word) (n : Nat) :
    decodeCall (callFastReadQuadIO ca n) = some (.cmdFastReadQuadIO ca n) := ifBuilt_self _ _

end Sys2Proof.Machine
end

