-- ==== Sys2Proof/Laws/State.lean ====
section
/-! SUPPORT. What each update of the state leaves, field by field. -/

namespace Sys2Proof.Machine

@[simp] theorem respond_life (r : Response) (s : State) : (respond r s).life = s.life := rfl
@[simp] theorem respond_mode (r : Response) (s : State) : (respond r s).mode = s.mode := rfl
@[simp] theorem respond_activity (r : Response) (s : State) : (respond r s).activity = s.activity := rfl
@[simp] theorem respond_requests (r : Response) (s : State) : (respond r s).requests = s.requests := rfl
@[simp] theorem respond_responses (r : Response) (s : State) : (respond r s).responses = s.responses ++ [r] := rfl
@[simp] theorem respond_transcript (r : Response) (s : State) : (respond r s).transcript = s.transcript := rfl
@[simp] theorem respond_framed (r : Response) (s : State) : (respond r s).framed = s.framed := rfl
@[simp] theorem respond_env (r : Response) (s : State) : (respond r s).env = s.env := rfl
@[simp] theorem respond_calls (r : Response) (s : State) : (respond r s).calls = s.calls := rfl
@[simp] theorem respond_config (r : Response) (s : State) : (respond r s).config = s.config := rfl

@[simp] theorem refuse_life (r : RefusalReason) (s : State) : (refuse r s).life = s.life := rfl
@[simp] theorem refuse_mode (r : RefusalReason) (s : State) : (refuse r s).mode = s.mode := rfl
@[simp] theorem refuse_activity (r : RefusalReason) (s : State) : (refuse r s).activity = s.activity := rfl
@[simp] theorem refuse_requests (r : RefusalReason) (s : State) : (refuse r s).requests = s.requests := rfl
@[simp] theorem refuse_responses (r : RefusalReason) (s : State) : (refuse r s).responses = s.responses ++ [.refused r] := rfl
@[simp] theorem refuse_transcript (r : RefusalReason) (s : State) : (refuse r s).transcript = s.transcript := rfl
@[simp] theorem refuse_framed (r : RefusalReason) (s : State) : (refuse r s).framed = s.framed := rfl
@[simp] theorem refuse_env (r : RefusalReason) (s : State) : (refuse r s).env = s.env := rfl
@[simp] theorem refuse_calls (r : RefusalReason) (s : State) : (refuse r s).calls = s.calls := rfl
@[simp] theorem refuse_config (r : RefusalReason) (s : State) : (refuse r s).config = s.config := rfl

@[simp] theorem setMode_life (m : Mode) (s : State) : (setMode m s).life = s.life := rfl
@[simp] theorem setMode_mode (m : Mode) (s : State) : (setMode m s).mode = some m := rfl
@[simp] theorem setMode_activity (m : Mode) (s : State) : (setMode m s).activity = s.activity := rfl
@[simp] theorem setMode_requests (m : Mode) (s : State) : (setMode m s).requests = s.requests := rfl
@[simp] theorem setMode_responses (m : Mode) (s : State) : (setMode m s).responses = s.responses := rfl
@[simp] theorem setMode_transcript (m : Mode) (s : State) : (setMode m s).transcript = s.transcript := rfl
@[simp] theorem setMode_framed (m : Mode) (s : State) : (setMode m s).framed = s.framed := rfl
@[simp] theorem setMode_env (m : Mode) (s : State) : (setMode m s).env = s.env := rfl
@[simp] theorem setMode_calls (m : Mode) (s : State) : (setMode m s).calls = s.calls := rfl
@[simp] theorem setMode_config (m : Mode) (s : State) : (setMode m s).config = s.config := rfl

@[simp] theorem endWait_life (s : State) : (endWait s).life = s.life := rfl
@[simp] theorem endWait_mode (s : State) : (endWait s).mode = s.mode := rfl
@[simp] theorem endWait_activity (s : State) : (endWait s).activity = .idle := rfl
@[simp] theorem endWait_requests (s : State) : (endWait s).requests = s.requests := rfl
@[simp] theorem endWait_responses (s : State) : (endWait s).responses = s.responses ++ [.ok .unit] := rfl
@[simp] theorem endWait_transcript (s : State) : (endWait s).transcript = s.transcript := rfl
@[simp] theorem endWait_framed (s : State) : (endWait s).framed = s.framed := rfl
@[simp] theorem endWait_env (s : State) : (endWait s).env = s.env := rfl
@[simp] theorem endWait_calls (s : State) : (endWait s).calls = s.calls := rfl
@[simp] theorem endWait_config (s : State) : (endWait s).config = s.config := rfl

@[simp] theorem transport_life (c : Call) (s : State) : ((transport c s).2).life = s.life := rfl
@[simp] theorem transport_mode (c : Call) (s : State) : ((transport c s).2).mode = s.mode := rfl
@[simp] theorem transport_activity (c : Call) (s : State) : ((transport c s).2).activity = s.activity := rfl
@[simp] theorem transport_requests (c : Call) (s : State) : ((transport c s).2).requests = s.requests := rfl
@[simp] theorem transport_responses (c : Call) (s : State) : ((transport c s).2).responses = s.responses := rfl
@[simp] theorem transport_transcript (c : Call) (s : State) : ((transport c s).2).transcript = s.transcript ++ [{ call := c, result := (transport c s).1 }] := rfl
@[simp] theorem transport_framed (c : Call) (s : State) : ((transport c s).2).framed = s.framed := rfl
@[simp] theorem transport_env (c : Call) (s : State) : ((transport c s).2).env = (envAnswer s.config.regLayout s.calls c s.env).2 := rfl
@[simp] theorem transport_calls (c : Call) (s : State) : ((transport c s).2).calls = s.calls + 1 := rfl
@[simp] theorem transport_config (c : Call) (s : State) : ((transport c s).2).config = s.config := rfl

theorem refuse_eq (r : RefusalReason) (s : State) :
    refuse r s = { s with responses := s.responses ++ [.refused r] } := rfl

end Sys2Proof.Machine
end

