-- ==== Sys2Proof/Laws/Ops.lean ====
section
/-! SUPPORT. What each shared operation can do, said once. -/

namespace Sys2Proof.Machine

/-! Transport calls. -/

theorem freeBytes_length (k i n : Nat) : (freeBytes k i n).length = n := by
  induction n generalizing i with
  | zero => rfl
  | succ n ih => simp [freeBytes, ih]

theorem received_length (k n : Nat) (bs : List Byte) : (received k n bs).length = n := by
  simp only [received, List.length_append, List.length_take, freeBytes_length]
  omega

/-- An answer of the right length is received as it is. -/
theorem received_exact (k : Nat) (bs : List Byte) : received k bs.length bs = bs := by
  simp [received, freeBytes]

theorem completed_fits (k : Nat) (c : Call) (bs : List Byte) : ResultFits c (completed k c bs) := by
  cases c with
  | write d p => rfl
  | transfer d n => exact received_length k n bs

theorem err_fits (c : Call) (t : TransportError) : ResultFits c (.err t) := by
  cases c <;> trivial

theorem freeResult_fits (k : Nat) (c : Call) : ResultFits c (freeResult k c) := by
  unfold freeResult
  split
  · exact err_fits _ _
  · exact completed_fits _ _ _

theorem answered_fits (k : Nat) (c : Call) (a : Answer) : ResultFits c (answered k c a) := by
  cases a with
  | ok bs => exact completed_fits k c bs
  | err t => exact err_fits c t

theorem envAnswer_fits (l : RegLayout) (k : Nat) (c : Call) (e : Env) : ResultFits c (envAnswer l k c e).1 := by
  unfold envAnswer
  split
  · exact freeResult_fits _ _
  · exact answered_fits _ _ _
  · split
    · exact completed_fits _ _ _
    · exact freeResult_fits _ _

/-- Every call returns a result of its primitive's shape, whatever the environment is. -/
theorem transport_fits (c : Call) (s : State) : ResultFits c (transport c s).1 := envAnswer_fits _ _ _ _

theorem fits_of_eq {c : Call} {s t : State} {r : CallResult} (h : transport c s = (r, t)) : ResultFits c r := by
  have hf := transport_fits c s
  rwa [h] at hf

/-- A one-byte read that succeeds returns one byte. -/
theorem readCall_one_byte {r : ChipRegister} {bs : List Byte} {s t : State}
    (h : transport (callReadRegister r) s = (.ok bs, t)) : ∃ b, bs = [b] :=
  List.length_eq_one_iff.mp (fits_of_eq h)

/-- The state after a call, when its result is known. -/
theorem transport_eq {c : Call} {s t : State} {r : CallResult} (h : transport c s = (r, t)) :
    r = (transport c s).1 ∧ t = (transport c s).2 := by
  rw [h]; exact ⟨rfl, rfl⟩

/-! Flows. -/

@[simp] theorem andThen_done {α β : Type} (v : α) (s : State) (f : α → State → Flow β) :
    andThen (.done v s) f = f v s := rfl

@[simp] theorem andThen_raised {α β : Type} (e : ErrorKind) (s : State) (f : α → State → Flow β) :
    andThen (.raised e s) f = .raised e s := rfl

@[simp] theorem finish_done (v : Value) (s : State) : finish (.done v s) = respond (.ok v) s := rfl

@[simp] theorem finish_raised (e : ErrorKind) (s : State) : finish (.raised e s) = respond (.err e) s := rfl

theorem issue_ok {c : Call} {s t : State} {bs : List Byte} (h : transport c s = (.ok bs, t)) :
    issue c s = .done bs t := by
  simp [issue, h]

theorem issue_err {c : Call} {s t : State} {u : TransportError} (h : transport c s = (.err u, t)) :
    issue c s = .raised (mapError u) t := by
  simp [issue, h]

theorem issueWrite_ok {c : Call} {s t : State} {bs : List Byte} (h : transport c s = (.ok bs, t)) :
    issueWrite c s = .done () t := by
  simp [issueWrite, issue_ok h]

theorem issueWrite_err {c : Call} {s t : State} {u : TransportError} (h : transport c s = (.err u, t)) :
    issueWrite c s = .raised (mapError u) t := by
  simp [issueWrite, issue_err h]

theorem readReg_ok {r : ChipRegister} {s t : State} {b : Byte}
    (h : transport (callReadRegister r) s = (.ok [b], t)) : readReg r s = .done b t := by
  simp [readReg, issue_ok h]

theorem readReg_err {r : ChipRegister} {s t : State} {u : TransportError}
    (h : transport (callReadRegister r) s = (.err u, t)) : readReg r s = .raised (mapError u) t := by
  simp [readReg, issue_err h]

theorem writeReg_ok {r : WritableRegister} {v : Byte} {s t : State} {bs : List Byte}
    (h : transport (callWriteRegister r v) s = (.ok bs, t)) : writeReg r v s = .done () t :=
  issueWrite_ok h

theorem writeReg_err {r : WritableRegister} {v : Byte} {s t : State} {u : TransportError}
    (h : transport (callWriteRegister r v) s = (.err u, t)) : writeReg r v s = .raised (mapError u) t :=
  issueWrite_err h

theorem preflight_free {l : StatusLayout} {s t : State} {b : Byte} (h : transport (callReadRegister .status) s = (.ok [b], t))
    (hb : isBusy l b = false) : preflight l s = .done () t := by
  simp [preflight, readReg_ok h, hb]

theorem preflight_busy {l : StatusLayout} {s t : State} {b : Byte} (h : transport (callReadRegister .status) s = (.ok [b], t))
    (hb : isBusy l b = true) : preflight l s = .raised .deviceBusy t := by
  simp [preflight, readReg_ok h, hb]

theorem preflight_err {l : StatusLayout} {s t : State} {u : TransportError}
    (h : transport (callReadRegister .status) s = (.err u, t)) : preflight l s = .raised (mapError u) t := by
  simp [preflight, readReg_err h]

theorem postCheck_ok {f : Byte → Bool} {s t : State} {b : Byte}
    (h : transport (callReadRegister .status) s = (.ok [b], t)) :
    postCheck f s = if f b then .raised .writeFailure t else .done () t := by
  simp [postCheck, readReg_ok h]

theorem postCheck_err {f : Byte → Bool} {s t : State} {u : TransportError}
    (h : transport (callReadRegister .status) s = (.err u, t)) : postCheck f s = .raised (mapError u) t := by
  simp [postCheck, readReg_err h]

/-! Admission. -/

theorem admission_detached {col : ModeColumn} {ok : Bool} {s : State} (h : s.life = .detached) :
    admission col ok s = some .notAttached := by
  simp [admission, h]

theorem admission_badOperand {col : ModeColumn} {s : State} (h : s.life = .attached) :
    admission col false s = some .badOperand := by
  simp [admission, h]

theorem admission_wrongMode {col : ModeColumn} {s : State} (h : s.life = .attached)
    (hm : columnAdmits col s.mode = false) : admission col true s = some .wrongMode := by
  simp [admission, h, hm]

theorem admission_none {col : ModeColumn} {s : State} (h : s.life = .attached)
    (hm : columnAdmits col s.mode = true) : admission col true s = none := by
  simp [admission, h, hm]

/-- The length check, as the rule states it. -/
theorem lengthOk_iff (c : Config) (n : Nat) : c.lengthOk n = true ↔ 1 ≤ n ∧ n ≤ c.maxXfer := by
  simp only [Config.lengthOk, Bool.and_eq_true, Bool.or_eq_true, decide_eq_true_eq]
  simp only [Config.maxXfer]
  omega

theorem serve_refused {col : ModeColumn} {ok : Bool} {f : State → Flow Value} {s : State} {r : RefusalReason}
    (h : admission col ok s = some r) : serve col ok f s = refuse r s := by
  simp [serve, h]

theorem serve_admitted {col : ModeColumn} {ok : Bool} {f : State → Flow Value} {s : State}
    (h : admission col ok s = none) : serve col ok f s = finish (f s) := by
  simp [serve, h]

theorem serveGated_refused {col : ModeColumn} {ok : Bool} {f : State → Flow Value} {s : State} {r : RefusalReason}
    (h : admission col ok s = some r) : serveGated col ok f s = refuse r s :=
  serve_refused h

theorem serveGated_free {col : ModeColumn} {ok : Bool} {f : State → Flow Value} {s t : State} {b : Byte}
    (h : admission col ok s = none) (hp : transport (callReadRegister .status) s = (.ok [b], t))
    (hb : isBusy s.config.regLayout.status b = false) : serveGated col ok f s = finish (f t) := by
  rw [serveGated, serve_admitted h, preflight_free hp hb, andThen_done]

theorem serveGated_busy {col : ModeColumn} {ok : Bool} {f : State → Flow Value} {s t : State} {b : Byte}
    (h : admission col ok s = none) (hp : transport (callReadRegister .status) s = (.ok [b], t))
    (hb : isBusy s.config.regLayout.status b = true) : serveGated col ok f s = respond (.err .deviceBusy) t := by
  rw [serveGated, serve_admitted h, preflight_busy hp hb, andThen_raised, finish_raised]

theorem serveGated_err {col : ModeColumn} {ok : Bool} {f : State → Flow Value} {s t : State} {u : TransportError}
    (h : admission col ok s = none) (hp : transport (callReadRegister .status) s = (.err u, t)) :
    serveGated col ok f s = respond (.err (mapError u)) t := by
  rw [serveGated, serve_admitted h, preflight_err hp, andThen_raised, finish_raised]

/-- A gated request on a machine that admits it: what its preflight leads to, in the terms of the claims. -/
theorem afterPreflight_intro {s : State} {o : Host.Outcome State Fault Refusal} {k : State → Prop} {col : ModeColumn}
    {ok : Bool} {f : State → Flow Value} (h : admission col ok s = none) (ho : o = .next (serveGated col ok f s))
    (hk : ∀ t, o = .next (finish (f t)) → k t) : AfterPreflight s o k := by
  refine ⟨fun u t hu => ?_, fun bs t hu => ?_⟩
  · rw [ho, serveGated_err h hu]; rfl
  · obtain ⟨b, rfl⟩ := readCall_one_byte hu
    refine ⟨b, rfl, fun hb => ?_, fun hb => hk t ?_⟩
    · rw [ho, serveGated_busy h hu hb]; rfl
    · rw [ho, serveGated_free h hu hb]

/-! Bus commands alone. -/

theorem transact_attached {c : Call} {s : State} (h : s.life = .attached) :
    transact c s = .next (transport c s).2 := by
  simp [transact, h]

theorem transactData_attached {c : Call} {n : Nat} {s : State} (h : s.life = .attached)
    (hn : s.config.lengthOk n = true) : transactData c n s = .next (transport c s).2 := by
  simp [transactData, h, hn]

end Sys2Proof.Machine
end

