-- ==== Sys2Proof/Laws/Flow.lean ====
section
/-! SUPPORT. What an operation's pseudocode can do on its way: which states it leads to (Keeps), and which transport calls
it makes and how it ends (Orderly). Each is proved once for the helpers and once for the sequencing. -/

namespace Sys2Proof.Machine

/-- The state an operation under way is in. -/
def flowState {α : Type} : Flow α → State
  | .done _ s => s
  | .raised _ s => s

/-! Keeping a property. -/

/-- `f` keeps `P`, whether it completes or raises. -/
def Keeps {α : Type} (P : State → Prop) (f : State → Flow α) : Prop := ∀ s, P s → P (flowState (f s))

/-- A transport call keeps `P`. -/
def CallKeeps (P : State → Prop) (c : Call) : Prop := ∀ s, P s → P (transport c s).2

theorem keeps_done {α : Type} (P : State → Prop) (v : α) : Keeps P (fun s => Flow.done v s) := fun _ h => h

theorem keeps_raised {α : Type} (P : State → Prop) (e : ErrorKind) : Keeps (α := α) P (fun s => Flow.raised e s) :=
  fun _ h => h

theorem keeps_andThen {α β : Type} {P : State → Prop} {f : State → Flow α} {g : α → State → Flow β} (hf : Keeps P f)
    (hg : ∀ v, Keeps P (g v)) : Keeps P (fun s => andThen (f s) g) := by
  intro s h
  have h1 := hf s h
  show P (flowState (andThen (f s) g))
  revert h1
  cases f s with
  | done v t => exact hg v t
  | raised e t => exact id

theorem keeps_issue {P : State → Prop} {c : Call} (h : CallKeeps P c) : Keeps P (issue c) := by
  intro s hs
  have h1 := h s hs
  unfold issue
  split
  · rename_i heq; rwa [heq] at h1
  · rename_i heq; rwa [heq] at h1

theorem keeps_issueWrite {P : State → Prop} {c : Call} (h : CallKeeps P c) : Keeps P (issueWrite c) :=
  keeps_andThen (keeps_issue h) fun _ => keeps_done P ()

theorem keeps_readReg {P : State → Prop} {r : ChipRegister} (h : CallKeeps P (callReadRegister r)) :
    Keeps P (readReg r) :=
  keeps_andThen (keeps_issue h) fun bs => keeps_done P (bs.headD 0)

theorem keeps_writeReg {P : State → Prop} {r : WritableRegister} {v : Byte} (h : CallKeeps P (callWriteRegister r v)) :
    Keeps P (writeReg r v) :=
  keeps_issueWrite h

theorem keeps_preflight {P : State → Prop} {l : StatusLayout} (h : CallKeeps P (callReadRegister .status)) :
    Keeps P (preflight l) := by
  refine keeps_andThen (keeps_readReg h) fun b => ?_
  intro s hs
  show P (flowState (if isBusy l b then Flow.raised .deviceBusy s else .done () s))
  split <;> exact hs

theorem keeps_postCheck {P : State → Prop} {f : Byte → Bool} (h : CallKeeps P (callReadRegister .status)) :
    Keeps P (postCheck f) := by
  refine keeps_andThen (keeps_readReg h) fun b => ?_
  intro s hs
  show P (flowState (if f b then Flow.raised .writeFailure s else .done () s))
  split <;> exact hs

/-- A served request keeps `P` if its pseudocode does and a response does. -/
theorem serve_keeps {P : State → Prop} {col : ModeColumn} {ok : Bool} {f : State → Flow Value} {s : State}
    (hr : ∀ r t, P t → P (respond r t)) (hf : Keeps P f) (h : P s) : P (serve col ok f s) := by
  unfold serve
  split
  · exact hr _ _ h
  · have h1 := hf s h
    revert h1
    cases f s with
    | done v t => exact hr _ t
    | raised e t => exact hr _ t

theorem serveGated_keeps {P : State → Prop} {col : ModeColumn} {ok : Bool} {f : State → Flow Value} {s : State}
    (hr : ∀ r t, P t → P (respond r t)) (hp : CallKeeps P (callReadRegister .status)) (hf : Keeps P f) (h : P s) :
    P (serveGated col ok f s) :=
  serve_keeps hr (keeps_andThen (keeps_preflight hp) fun _ => hf) h

/-! The calls made on the way. -/

/-- From `s` to `t` the block made the transport calls `events` and touched nothing else but its mode. -/
structure Ran (s t : State) (events : List Event) : Prop where
  life : t.life = s.life
  activity : t.activity = s.activity
  requests : t.requests = s.requests
  responses : t.responses = s.responses
  framed : t.framed = s.framed
  config : t.config = s.config
  transcript : t.transcript = s.transcript ++ events

theorem Ran.refl (s : State) : Ran s s [] := ⟨rfl, rfl, rfl, rfl, rfl, rfl, (List.append_nil _).symm⟩

theorem Ran.trans {s t u : State} {a b : List Event} (h : Ran s t a) (k : Ran t u b) : Ran s u (a ++ b) :=
  ⟨k.life.trans h.life, k.activity.trans h.activity, k.requests.trans h.requests, k.responses.trans h.responses,
    k.framed.trans h.framed, k.config.trans h.config, by rw [k.transcript, h.transcript, List.append_assoc]⟩

theorem Ran.call {c : Call} {s t : State} {r : CallResult} (h : transport c s = (r, t)) : Ran s t [⟨c, r⟩] := by
  obtain ⟨rfl, rfl⟩ := transport_eq h
  exact ⟨rfl, rfl, rfl, rfl, rfl, rfl, rfl⟩

theorem Ran.setMode (m : Mode) (s : State) : Ran s (Machine.setMode m s) [] :=
  ⟨rfl, rfl, rfl, rfl, rfl, rfl, (List.append_nil _).symm⟩

/-- A call that was answered without a failure. -/
def EventOk (e : Event) : Prop := ∃ bs, e.result = .ok bs

/-- The run of an operation so far: while it goes on every call succeeded, and where it was raised only the last call may
have failed, the error then being that call's (spec/60_exceptions.md R143). -/
def Orderly {α : Type} (s : State) : Flow α → Prop
  | .done _ t => ∃ events, Ran s t events ∧ ∀ e ∈ events, EventOk e
  | .raised k t => ∃ events, Ran s t events ∧ (∀ e ∈ events.dropLast, EventOk e) ∧
      ∀ e u, events.getLast? = some e → e.result = .err u → k = mapError u

theorem orderly_done {α : Type} (v : α) (s : State) : Orderly s (.done v s) :=
  ⟨[], Ran.refl s, fun _ h => nomatch h⟩

theorem orderly_setMode {α : Type} (v : α) (m : Mode) (s : State) : Orderly s (.done v (setMode m s)) :=
  ⟨[], Ran.setMode m s, fun _ h => nomatch h⟩

theorem orderly_raised {α : Type} (k : ErrorKind) (s : State) : Orderly (α := α) s (.raised k s) :=
  ⟨[], Ran.refl s, (fun _ h => nomatch h), fun _ _ h => nomatch h⟩

theorem orderly_issue (c : Call) (s : State) : Orderly s (issue c s) := by
  unfold issue
  split
  · exact ⟨_, Ran.call ‹_›, fun e he => by rw [List.mem_singleton.mp he]; exact ⟨_, rfl⟩⟩
  · rename_i u t h
    refine ⟨_, Ran.call h, (fun _ h => nomatch h), fun e w he hw => ?_⟩
    cases he
    cases hw
    rfl

theorem orderly_andThen {α β : Type} {s : State} {p : Flow α} {g : α → State → Flow β} (hp : Orderly s p)
    (hg : ∀ v t, Orderly t (g v t)) : Orderly s (andThen p g) := by
  cases p with
  | raised k t => exact hp
  | done v t =>
    obtain ⟨a, ha, hok⟩ := hp
    have h := hg v t
    show Orderly s (g v t)
    revert h
    cases g v t with
    | done w u =>
      rintro ⟨b, hb, hbk⟩
      exact ⟨a ++ b, ha.trans hb, fun e he => (List.mem_append.mp he).elim (hok e) (hbk e)⟩
    | raised k u =>
      rintro ⟨b, hb, hbk, hlast⟩
      refine ⟨a ++ b, ha.trans hb, fun e he => ?_, fun e w he hw => ?_⟩
      · rcases List.eq_nil_or_concat b with rfl | ⟨b', x, rfl⟩
        · rw [List.append_nil] at he
          exact hok e (List.mem_of_mem_dropLast he)
        · rw [List.concat_eq_append, ← List.append_assoc, List.dropLast_concat] at he
          rw [List.concat_eq_append, List.dropLast_concat] at hbk
          exact (List.mem_append.mp he).elim (hok e) (hbk e)
      · rcases List.eq_nil_or_concat b with rfl | ⟨b', x, rfl⟩
        · rw [List.append_nil] at he
          obtain ⟨bs, hbs⟩ := hok e (List.mem_of_getLast? he)
          rw [hbs] at hw
          cases hw
        · refine hlast e w ?_ hw
          rw [List.concat_eq_append] at he ⊢
          rw [← List.append_assoc, List.getLast?_concat] at he
          rw [List.getLast?_concat]
          exact he

theorem orderly_issueWrite (c : Call) (s : State) : Orderly s (issueWrite c s) :=
  orderly_andThen (orderly_issue c s) fun _ t => orderly_done () t

theorem orderly_readReg (r : ChipRegister) (s : State) : Orderly s (readReg r s) :=
  orderly_andThen (orderly_issue _ s) fun _ t => orderly_done _ t

theorem orderly_writeReg (r : WritableRegister) (v : Byte) (s : State) : Orderly s (writeReg r v s) :=
  orderly_issueWrite _ s

theorem orderly_preflight (l : StatusLayout) (s : State) : Orderly s (preflight l s) :=
  orderly_andThen (orderly_readReg _ s) fun b t => by
    show Orderly t (if isBusy l b then Flow.raised .deviceBusy t else .done () t)
    split
    · exact orderly_raised _ t
    · exact orderly_done _ t

theorem orderly_postCheck (f : Byte → Bool) (s : State) : Orderly s (postCheck f s) :=
  orderly_andThen (orderly_readReg _ s) fun b t => by
    show Orderly t (if f b then Flow.raised .writeFailure t else .done () t)
    split
    · exact orderly_raised _ t
    · exact orderly_done _ t

/-- How a served request ends: refused on entry with nothing else done, or with one response after calls of which only
the last may have failed, its error then being the response. -/
def Served (s t : State) : Prop :=
  (∃ r, t = refuse r s) ∨
    ∃ u events r, Ran s u events ∧ t = respond r u ∧ Response.accepted r = true ∧
      (∀ e ∈ events.dropLast, EventOk e) ∧
      ∀ e w, events.getLast? = some e → e.result = .err w → r = .err (mapError w)

theorem served_finish {s : State} {p : Flow Value} (h : Orderly s p) : Served s (finish p) := by
  cases p with
  | done v u =>
    obtain ⟨ev, hr, hok⟩ := h
    refine .inr ⟨u, ev, .ok v, hr, rfl, rfl, fun e he => hok e (List.mem_of_mem_dropLast he), fun e w he hw => ?_⟩
    obtain ⟨bs, hbs⟩ := hok e (List.mem_of_getLast? he)
    rw [hbs] at hw
    cases hw
  | raised k u =>
    obtain ⟨ev, hr, hok, hl⟩ := h
    exact .inr ⟨u, ev, .err k, hr, rfl, rfl, hok, fun e w he hw => by rw [hl e w he hw]⟩

theorem serve_served {col : ModeColumn} {ok : Bool} {f : State → Flow Value} {s : State} (h : Orderly s (f s)) :
    Served s (serve col ok f s) := by
  unfold serve
  split
  · exact .inl ⟨_, rfl⟩
  · exact served_finish h

theorem serveGated_served {col : ModeColumn} {ok : Bool} {f : State → Flow Value} {s : State}
    (h : ∀ t, Orderly t (f t)) : Served s (serveGated col ok f s) :=
  serve_served (orderly_andThen (orderly_preflight _ s) fun _ t => h t)

end Sys2Proof.Machine
end

