-- ==== Sys2Proof/Laws/PerInstr.lean ====
section
/-! SUPPORT. The family CodeByte: the first byte of an instruction's encoding is the one spec/opcode_table.json matches its
row on. -/

namespace Sys2Proof.Laws.CodeByte

/-- The `match` value of the instruction's row in spec/opcode_table.json. -/
def matchByte : Instr → Byte
  | .create => 0x00
  | .release => 0x01
  | .resetDevice => 0x02
  | .getJedecId => 0x03
  | .checkBusy => 0x04
  | .waitWhileBusy => 0x05
  | .readStatusRegister => 0x06
  | .readProtectionRegister => 0x07
  | .readConfigurationRegister => 0x08
  | .writeProtectionRegister _ => 0x09
  | .writeConfigurationRegister _ => 0x0A
  | .setWriteProtection _ => 0x0B
  | .setContinuousReadMode _ => 0x0C
  | .readMemoryToDataBuffer _ => 0x0D
  | .readDataBuffer _ _ _ => 0x0E
  | .readBbmLookupTable => 0x0F
  | .enableWrite => 0x10
  | .disableWrite => 0x11
  | .erase128kbBlock _ => 0x12
  | .loadToDataBuffer _ _ _ _ => 0x13
  | .writeDataBufferToMemory _ => 0x14
  | .cmdDeviceReset => 0xFF
  | .cmdJedecId => 0x9F
  | .cmdReadRegister _ => 0x05
  | .cmdWriteRegister _ _ => 0x01
  | .cmdWriteEnable => 0x06
  | .cmdWriteDisable => 0x04
  | .cmdBlockErase _ => 0xD8
  | .cmdPageDataRead _ => 0x13
  | .cmdProgramExecute _ => 0x10
  | .cmdLoadClearSingle _ _ => 0x02
  | .cmdLoadRandomSingle _ _ => 0x84
  | .cmdLoadClearQuad _ _ => 0x32
  | .cmdLoadRandomQuad _ _ => 0x34
  | .cmdReadBbmLut => 0xA5
  | .cmdFastRead _ _ => 0x0B
  | .cmdFastReadDualOutput _ _ => 0x3B
  | .cmdFastReadQuadOutput _ _ => 0x6B
  | .cmdFastReadDualIO _ _ => 0xBB
  | .cmdFastReadQuadIO _ _ => 0xEB

/-- Under every layout the encoding begins with the row's byte. -/
def Statement (i : Instr) : Prop := ∀ l : RegLayout, (encode l i).codeByte = some (matchByte i)

theorem create : Statement .create := fun _ => rfl

theorem release : Statement .release := fun _ => rfl

theorem resetDevice : Statement .resetDevice := fun _ => rfl

theorem getJedecId : Statement .getJedecId := fun _ => rfl

theorem checkBusy : Statement .checkBusy := fun _ => rfl

theorem waitWhileBusy : Statement .waitWhileBusy := fun _ => rfl

theorem readStatusRegister : Statement .readStatusRegister := fun _ => rfl

theorem readProtectionRegister : Statement .readProtectionRegister := fun _ => rfl

theorem readConfigurationRegister : Statement .readConfigurationRegister := fun _ => rfl

theorem writeProtectionRegister (p : ProtectionRegister) : Statement (.writeProtectionRegister p) := fun _ => rfl

theorem writeConfigurationRegister (c : ConfigurationRegister) : Statement (.writeConfigurationRegister c) := fun _ => rfl

theorem setWriteProtection (p : ProtectionRegister) : Statement (.setWriteProtection p) := fun _ => rfl

theorem setContinuousReadMode (cont : Bool) : Statement (.setContinuousReadMode cont) := fun _ => rfl

theorem readMemoryToDataBuffer (pa : Word) : Statement (.readMemoryToDataBuffer pa) := fun _ => rfl

theorem readDataBuffer (method : ReadMethod) (ca : Word) (n : Nat) : Statement (.readDataBuffer method ca n) := fun _ => rfl

theorem readBbmLookupTable : Statement .readBbmLookupTable := fun _ => rfl

theorem enableWrite : Statement .enableWrite := fun _ => rfl

theorem disableWrite : Statement .disableWrite := fun _ => rfl

theorem erase128kbBlock (pa : Word) : Statement (.erase128kbBlock pa) := fun _ => rfl

theorem loadToDataBuffer (method : WriteMethod) (clear : Bool) (ca : Word) (data : List Byte) : Statement (.loadToDataBuffer method clear ca data) := fun _ => rfl

theorem writeDataBufferToMemory (pa : Word) : Statement (.writeDataBufferToMemory pa) := fun _ => rfl

theorem cmdDeviceReset : Statement .cmdDeviceReset := fun _ => rfl

theorem cmdJedecId : Statement .cmdJedecId := fun _ => rfl

theorem cmdReadRegister (reg : ChipRegister) : Statement (.cmdReadRegister reg) := fun _ => rfl

theorem cmdWriteRegister (reg : WritableRegister) (value : Byte) : Statement (.cmdWriteRegister reg value) := fun _ => rfl

theorem cmdWriteEnable : Statement .cmdWriteEnable := fun _ => rfl

theorem cmdWriteDisable : Statement .cmdWriteDisable := fun _ => rfl

theorem cmdBlockErase (ea : Word) : Statement (.cmdBlockErase ea) := fun _ => rfl

theorem cmdPageDataRead (pa : Word) : Statement (.cmdPageDataRead pa) := fun _ => rfl

theorem cmdProgramExecute (pa : Word) : Statement (.cmdProgramExecute pa) := fun _ => rfl

theorem cmdLoadClearSingle (ca : Word) (data : List Byte) : Statement (.cmdLoadClearSingle ca data) := fun _ => rfl

theorem cmdLoadRandomSingle (ca : Word) (data : List Byte) : Statement (.cmdLoadRandomSingle ca data) := fun _ => rfl

theorem cmdLoadClearQuad (ca : Word) (data : List Byte) : Statement (.cmdLoadClearQuad ca data) := fun _ => rfl

theorem cmdLoadRandomQuad (ca : Word) (data : List Byte) : Statement (.cmdLoadRandomQuad ca data) := fun _ => rfl

theorem cmdReadBbmLut : Statement .cmdReadBbmLut := fun _ => rfl

theorem cmdFastRead (ca : Word) (n : Nat) : Statement (.cmdFastRead ca n) := fun _ => rfl

theorem cmdFastReadDualOutput (ca : Word) (n : Nat) : Statement (.cmdFastReadDualOutput ca n) := fun _ => rfl

theorem cmdFastReadQuadOutput (ca : Word) (n : Nat) : Statement (.cmdFastReadQuadOutput ca n) := fun _ => rfl

theorem cmdFastReadDualIO (ca : Word) (n : Nat) : Statement (.cmdFastReadDualIO ca n) := fun _ => rfl

theorem cmdFastReadQuadIO (ca : Word) (n : Nat) : Statement (.cmdFastReadQuadIO ca n) := fun _ => rfl

end Sys2Proof.Laws.CodeByte
end

