-- ==== Sys2Proof/Laws/Requests.lean ====
section
/-! SUPPORT. What an instruction can do, said once: that the calls it builds are legal (built_…), how a request ends
(request_served), what an iteration of a wait does (pollOnce_cases) and what a bus command does (command_cases). -/

namespace Sys2Proof.Machine

/-! The calls the operations build are legal. -/

/-- The lengths below 2113 are legal whatever the open part of `MAX_XFER` is. -/
theorem lengthOk_of_le (cfg : Config) {n : Nat} (h1 : 1 ≤ n) (h2 : n ≤ 2112) : cfg.lengthOk n = true := by
  simp [Config.lengthOk, pageTotalSize, h1, h2]

theorem built_deviceReset (cfg : Config) : CallBuilt cfg callDeviceReset :=
  ⟨_, decodeCall_deviceReset, fun h => nomatch h⟩

theorem built_jedecId (cfg : Config) : CallBuilt cfg callJedecId :=
  ⟨_, decodeCall_jedecId, lengthOk_of_le cfg (by decide) (by decide)⟩

theorem built_readRegister (cfg : Config) (r : ChipRegister) : CallBuilt cfg (callReadRegister r) :=
  ⟨_, decodeCall_readRegister r, lengthOk_of_le cfg (by decide) (by decide)⟩

theorem built_writeRegister (cfg : Config) (r : WritableRegister) (v : Byte) : CallBuilt cfg (callWriteRegister r v) :=
  ⟨_, decodeCall_writeRegister r v, fun _ => lengthOk_of_le cfg (n := 2) (by decide) (by decide)⟩

theorem built_writeEnable (cfg : Config) : CallBuilt cfg callWriteEnable :=
  ⟨_, decodeCall_writeEnable, fun h => nomatch h⟩

theorem built_writeDisable (cfg : Config) : CallBuilt cfg callWriteDisable :=
  ⟨_, decodeCall_writeDisable, fun h => nomatch h⟩

theorem built_blockErase (cfg : Config) (ea : Word) : CallBuilt cfg (callBlockErase ea) :=
  ⟨_, decodeCall_blockErase ea, fun h => nomatch h⟩

theorem built_pageDataRead (cfg : Config) (pa : Word) : CallBuilt cfg (callPageDataRead pa) :=
  ⟨_, decodeCall_pageDataRead pa, fun h => nomatch h⟩

theorem built_programExecute (cfg : Config) (pa : Word) : CallBuilt cfg (callProgramExecute pa) :=
  ⟨_, decodeCall_programExecute pa, fun h => nomatch h⟩

theorem built_readBbmLut (cfg : Config) : CallBuilt cfg callReadBbmLut :=
  ⟨_, decodeCall_readBbmLut, lengthOk_of_le cfg (by decide) (by decide)⟩

theorem built_load {cfg : Config} (m : WriteMethod) (clear : Bool) (ca : Word) {data : List Byte}
    (h : cfg.lengthOk data.length = true) : CallBuilt cfg (callLoad m clear ca data) := by
  cases m <;> cases clear
  · exact ⟨_, decodeCall_loadRandomSingle ca data, fun _ => h⟩
  · exact ⟨_, decodeCall_loadClearSingle ca data, fun _ => h⟩
  · exact ⟨_, decodeCall_loadRandomQuad ca data, fun _ => h⟩
  · exact ⟨_, decodeCall_loadClearQuad ca data, fun _ => h⟩

theorem built_read {cfg : Config} (m : ReadMethod) (ca : Word) {n : Nat} (h : cfg.lengthOk n = true) :
    CallBuilt cfg (callRead m ca n) := by
  cases m
  · exact ⟨_, decodeCall_fastRead ca n, h⟩
  · exact ⟨_, decodeCall_fastReadDualOutput ca n, h⟩
  · exact ⟨_, decodeCall_fastReadQuadOutput ca n, h⟩
  · exact ⟨_, decodeCall_fastReadDualIO ca n, h⟩
  · exact ⟨_, decodeCall_fastReadQuadIO ca n, h⟩

/-! How they end. -/

/-- The iteration of a wait, by cases: the read failed or showed the chip free, and the wait ends; or it goes on. -/
theorem pollOnce_cases (s : State) :
    (∃ r t, transport (callReadRegister .status) s = (r, t) ∧ pollOnce s = endWait t ∧
        ((∃ u, r = .err u) ∨ ∃ b, r = .ok [b] ∧ isBusy s.config.regLayout.status b = false)) ∨
      ∃ b t, transport (callReadRegister .status) s = (.ok [b], t) ∧ isBusy s.config.regLayout.status b = true ∧
        pollOnce s = { t with activity := .waiting } := by
  cases h : transport (callReadRegister .status) s with
  | mk r t =>
    cases r with
    | err u => exact .inl ⟨_, _, rfl, by simp [pollOnce, h], .inl ⟨u, rfl⟩⟩
    | ok bs =>
      obtain ⟨b, rfl⟩ := readCall_one_byte h
      cases hb : isBusy s.config.regLayout.status b with
      | false => exact .inl ⟨_, _, rfl, by simp [pollOnce, h, hb], .inr ⟨b, rfl, hb⟩⟩
      | true => exact .inr ⟨b, t, rfl, hb, by simp [pollOnce, h, hb]⟩

/-- Every request but the three that are not an admission, some calls and a response, ends as a served request does. -/
theorem request_served {i : Instr} (s : State) (hr : i.isRequest = true) (h1 : i ≠ .create) (h2 : i ≠ .release)
    (h3 : i ≠ .waitWhileBusy) : ∃ t, exec i s = .next t ∧ Served s t := by
  cases i with
  | create => contradiction
  | release => contradiction
  | waitWhileBusy => contradiction
  | resetDevice =>
    exact ⟨_, rfl, serve_served (orderly_andThen (orderly_issueWrite _ _) fun _ t => orderly_done _ t)⟩
  | getJedecId => exact ⟨_, rfl, serve_served (orderly_andThen (orderly_issue _ _) fun _ t => orderly_done _ t)⟩
  | checkBusy => exact ⟨_, rfl, serve_served (orderly_andThen (orderly_readReg _ _) fun _ t => orderly_done _ t)⟩
  | readStatusRegister =>
    exact ⟨_, rfl, serve_served (orderly_andThen (orderly_readReg _ _) fun _ t => orderly_done _ t)⟩
  | readProtectionRegister =>
    exact ⟨_, rfl, serveGated_served fun _ => orderly_andThen (orderly_readReg _ _) fun _ t => orderly_done _ t⟩
  | readConfigurationRegister =>
    exact ⟨_, rfl, serveGated_served fun _ => orderly_andThen (orderly_readReg _ _) fun _ t => orderly_done _ t⟩
  | writeProtectionRegister p =>
    exact ⟨_, rfl, serveGated_served fun _ => orderly_andThen (orderly_writeReg _ _ _) fun _ t => orderly_done _ t⟩
  | writeConfigurationRegister c =>
    exact ⟨_, rfl, serveGated_served fun _ => orderly_andThen (orderly_writeReg _ _ _) fun _ t => orderly_done _ t⟩
  | setWriteProtection p =>
    exact ⟨_, rfl, serveGated_served fun _ => orderly_andThen (orderly_writeReg _ _ _) fun _ t => orderly_done _ t⟩
  | setContinuousReadMode c =>
    exact ⟨_, rfl, serveGated_served fun _ => orderly_andThen (orderly_readReg _ _) fun _ _ =>
      orderly_andThen (orderly_writeReg _ _ _) fun _ t => orderly_done _ t⟩
  | readMemoryToDataBuffer pa =>
    exact ⟨_, rfl, serveGated_served fun _ => orderly_andThen (orderly_issueWrite _ _) fun _ t => orderly_done _ t⟩
  | readDataBuffer m ca n =>
    exact ⟨_, rfl, serveGated_served fun _ => orderly_andThen (orderly_issue _ _) fun _ t => orderly_done _ t⟩
  | readBbmLookupTable =>
    exact ⟨_, rfl, serveGated_served fun _ => orderly_andThen (orderly_issue _ _) fun _ t => orderly_done _ t⟩
  | enableWrite =>
    exact ⟨_, rfl, serveGated_served fun _ => orderly_andThen (orderly_issueWrite _ _) fun _ t => orderly_setMode _ _ t⟩
  | disableWrite =>
    exact ⟨_, rfl, serveGated_served fun _ => orderly_andThen (orderly_issueWrite _ _) fun _ t => orderly_setMode _ _ t⟩
  | erase128kbBlock pa =>
    refine ⟨_, rfl, serveGated_served fun _ => orderly_andThen (orderly_issueWrite _ _) fun _ t => ?_⟩
    exact orderly_andThen (p := Flow.done () (setMode .read t)) (orderly_setMode _ _ t) fun _ u =>
      orderly_andThen (orderly_postCheck _ u) fun _ v => orderly_done _ v
  | loadToDataBuffer m clear ca data =>
    exact ⟨_, rfl, serveGated_served fun _ => orderly_andThen (orderly_issueWrite _ _) fun _ t => orderly_done _ t⟩
  | writeDataBufferToMemory pa =>
    refine ⟨_, rfl, serveGated_served fun _ => orderly_andThen (orderly_issueWrite _ _) fun _ t => ?_⟩
    exact orderly_andThen (p := Flow.done () (setMode .read t)) (orderly_setMode _ _ t) fun _ u =>
      orderly_andThen (orderly_postCheck _ u) fun _ v => orderly_done _ v
  | _ => cases hr

/-- What a request that answers a next state answers. -/
theorem next_inj {s t : State} (h : Host.Outcome.next (φ := Fault) (ρ := Refusal) s = .next t) : s = t := by
  cases h; rfl

/-- A request keeps `P` if a response does, if every call the block may build does, and if the mode it writes does. -/
theorem request_keeps {P : State → Prop} {i : Instr} {s t : State} (hP : P s)
    (hr : ∀ r t, P t → P (respond r t))
    (hc : ∀ c, CallBuilt s.config c → CallKeeps P c)
    (hm : ∀ c m t, modeEffect s.config i = some (c, m) → P t → P (setMode m t))
    (hreq : i.isRequest = true) (h1 : i ≠ .create) (h2 : i ≠ .release) (h3 : i ≠ .waitWhileBusy)
    (he : exec i s = .next t) : P t := by
  have hst := hc _ (built_readRegister _ .status)
  have fin : ∀ {c : Call} (v : Value), CallBuilt s.config c → Keeps P (fun s => andThen (issueWrite c s) fun _ s => .done v s) :=
    fun v h => keeps_andThen (keeps_issueWrite (hc _ h)) fun _ => keeps_done P v
  have ite : ∀ {n : Nat} {ok : Bool} {col : ModeColumn} {f : State → Flow Value}, ok = s.config.lengthOk n → (ok = true → Keeps P f) → P (serveGated col ok f s) := by
    intro n ok col f h k
    cases ok with
    | true => exact serveGated_keeps hr hst (k rfl) hP
    | false =>
      have : ∃ r, admission col false s = some r := by
        cases hl : s.life
        · exact ⟨_, admission_detached hl⟩
        · exact ⟨_, admission_badOperand hl⟩
      obtain ⟨r, h⟩ := this
      rw [serveGated_refused h]; exact hr _ _ hP
  cases i with
  | create => contradiction
  | release => contradiction
  | waitWhileBusy => contradiction
  | resetDevice => rw [← next_inj he]; exact serve_keeps hr (fin _ (built_deviceReset _)) hP
  | getJedecId => rw [← next_inj he]; exact serve_keeps hr (keeps_andThen (keeps_issue (hc _ (built_jedecId _))) fun _ => keeps_done P _) hP
  | checkBusy => rw [← next_inj he]; exact serve_keeps hr (keeps_andThen (keeps_readReg hst) fun _ => keeps_done P _) hP
  | readStatusRegister => rw [← next_inj he]; exact serve_keeps hr (keeps_andThen (keeps_readReg hst) fun _ => keeps_done P _) hP
  | readProtectionRegister => rw [← next_inj he]; exact serveGated_keeps hr hst (keeps_andThen (keeps_readReg (hc _ (built_readRegister _ _))) fun _ => keeps_done P _) hP
  | readConfigurationRegister => rw [← next_inj he]; exact serveGated_keeps hr hst (keeps_andThen (keeps_readReg (hc _ (built_readRegister _ _))) fun _ => keeps_done P _) hP
  | writeProtectionRegister p => rw [← next_inj he]; exact serveGated_keeps hr hst (fin _ (built_writeRegister _ _ _)) hP
  | writeConfigurationRegister p => rw [← next_inj he]; exact serveGated_keeps hr hst (fin _ (built_writeRegister _ _ _)) hP
  | setWriteProtection p => rw [← next_inj he]; exact serveGated_keeps hr hst (fin _ (built_writeRegister _ _ _)) hP
  | setContinuousReadMode c =>
    rw [← next_inj he]
    exact serveGated_keeps hr hst (keeps_andThen (keeps_readReg (hc _ (built_readRegister _ _))) fun _ => fin _ (built_writeRegister _ _ _)) hP
  | readMemoryToDataBuffer pa => rw [← next_inj he]; exact serveGated_keeps hr hst (fin _ (built_pageDataRead _ _)) hP
  | readDataBuffer m ca n =>
    rw [← next_inj he]; exact ite rfl fun h => keeps_andThen (keeps_issue (hc _ (built_read m ca h))) fun _ => keeps_done P _
  | readBbmLookupTable =>
    rw [← next_inj he]; exact serveGated_keeps hr hst (keeps_andThen (keeps_issue (hc _ (built_readBbmLut _))) fun _ => keeps_done P _) hP
  | enableWrite =>
    rw [← next_inj he]; exact serveGated_keeps hr hst (keeps_andThen (keeps_issueWrite (hc _ (built_writeEnable _))) fun _ t => hm _ _ t rfl) hP
  | disableWrite =>
    rw [← next_inj he]; exact serveGated_keeps hr hst (keeps_andThen (keeps_issueWrite (hc _ (built_writeDisable _))) fun _ t => hm _ _ t rfl) hP
  | erase128kbBlock pa =>
    rw [← next_inj he]
    exact serveGated_keeps hr hst (keeps_andThen (keeps_issueWrite (hc _ (built_blockErase _ _))) fun _ t ht =>
      keeps_andThen (keeps_postCheck hst) (fun _ => keeps_done P _) _ (hm _ _ _ rfl ht)) hP
  | loadToDataBuffer m clear ca data =>
    rw [← next_inj he]; exact ite rfl fun h => fin _ (built_load m clear ca h)
  | writeDataBufferToMemory pa =>
    rw [← next_inj he]
    exact serveGated_keeps hr hst (keeps_andThen (keeps_issueWrite (hc _ (built_programExecute _ _))) fun _ t ht =>
      keeps_andThen (keeps_postCheck hst) (fun _ => keeps_done P _) _ (hm _ _ _ rfl ht)) hP
  | _ => cases hreq

/-- A bus command that goes on is one transport call of a built call, or a refused length. -/
theorem command_cases {i : Instr} {s t : State} (h : i.isRequest = false) (he : exec i s = .next t) :
    s.life = .attached ∧
      ((∃ c, CallBuilt s.config c ∧ t = (transport c s).2) ∨ t = refuse .badOperand s) := by
  have plain : ∀ c, CallBuilt s.config c → transact c s = .next t →
      s.life = .attached ∧ ((∃ c, CallBuilt s.config c ∧ t = (transport c s).2) ∨ t = refuse .badOperand s) := by
    intro c hc h
    unfold transact at h
    split at h
    · cases h; exact ⟨‹_›, .inl ⟨c, hc, rfl⟩⟩
    · cases h
  have sized : ∀ c n, (s.config.lengthOk n = true → CallBuilt s.config c) → transactData c n s = .next t →
      s.life = .attached ∧ ((∃ c, CallBuilt s.config c ∧ t = (transport c s).2) ∨ t = refuse .badOperand s) := by
    intro c n hc h
    unfold transactData at h
    split at h
    · cases h
      split
      · exact ⟨‹_›, .inl ⟨c, hc ‹_›, rfl⟩⟩
      · exact ⟨‹_›, .inr rfl⟩
    · cases h
  cases i with
  | cmdDeviceReset => exact plain _ (built_deviceReset _) he
  | cmdJedecId => exact plain _ (built_jedecId _) he
  | cmdReadRegister r => exact plain _ (built_readRegister _ r) he
  | cmdWriteRegister r v => exact plain _ (built_writeRegister _ r v) he
  | cmdWriteEnable => exact plain _ (built_writeEnable _) he
  | cmdWriteDisable => exact plain _ (built_writeDisable _) he
  | cmdBlockErase ea => exact plain _ (built_blockErase _ ea) he
  | cmdPageDataRead pa => exact plain _ (built_pageDataRead _ pa) he
  | cmdProgramExecute pa => exact plain _ (built_programExecute _ pa) he
  | cmdReadBbmLut => exact plain _ (built_readBbmLut _) he
  | cmdLoadClearSingle ca data => exact sized _ _ (built_load .single true ca) he
  | cmdLoadRandomSingle ca data => exact sized _ _ (built_load .single false ca) he
  | cmdLoadClearQuad ca data => exact sized _ _ (built_load .quad true ca) he
  | cmdLoadRandomQuad ca data => exact sized _ _ (built_load .quad false ca) he
  | cmdFastRead ca n => exact sized _ _ (built_read .fastRead ca) he
  | cmdFastReadDualOutput ca n => exact sized _ _ (built_read .fastReadDualOutput ca) he
  | cmdFastReadQuadOutput ca n => exact sized _ _ (built_read .fastReadQuadOutput ca) he
  | cmdFastReadDualIO ca n => exact sized _ _ (built_read .fastReadDualIO ca) he
  | cmdFastReadQuadIO ca n => exact sized _ _ (built_read .fastReadQuadIO ca) he
  | _ => cases h

/-- A run whose first step goes on is the run from the next state. -/
theorem run_next (M : Host.Core) {k : Nat} {s t : M.State} (h : M.step s = .next t) : M.run (k + 1) s = M.run k t := by
  simp [Host.Core.run, h]

end Sys2Proof.Machine
end

