-- ==== Sys2Proof/Laws/Step.lean ====
section
/-! SUPPORT. What turning refused requests into refusal outcomes does to a move of the block, and the step of a wait. -/

namespace Sys2Proof.Machine

/-- A request was refused between two states exactly when a refusal is the one response added. -/
theorem refusalBetween_iff {s t : State} {q : RefusalReason} :
    refusalBetween s t = some q ↔ t.responses = s.responses ++ [.refused q] := by
  constructor
  · intro h
    unfold refusalBetween at h
    split at h
    · split at h
      · cases h; assumption
      · cases h
    · cases h
  · intro h
    simp [refusalBetween, h]

/-- A move that answers a refusal has no meaning. -/
theorem unlessRefused_refused {s t : State} {q : RefusalReason} (h : t.responses = s.responses ++ [.refused q]) :
    unlessRefused s (.next t) = .refused (.request q) := by
  simp [unlessRefused, refusalBetween_iff.mpr h]

/-- A move that answers no refusal stays as it is. -/
theorem unlessRefused_kept {s t : State} (h : ∀ q, t.responses ≠ s.responses ++ [.refused q]) :
    unlessRefused s (.next t) = .next t := by
  cases hr : refusalBetween s t with
  | none => simp [unlessRefused, hr]
  | some q => exact absurd (refusalBetween_iff.mp hr) (h q)

theorem unlessRefused_silent {s t : State} (h : t.responses = s.responses) : unlessRefused s (.next t) = .next t :=
  unlessRefused_kept (by simp [h])

theorem unlessRefused_accepted {s t : State} {r : Response} (h : t.responses = s.responses ++ [r])
    (hr : Response.accepted r = true) : unlessRefused s (.next t) = .next t :=
  unlessRefused_kept (by rintro q hq; simp [h] at hq; subst hq; cases hr)

/-- What is left of a move: that move, and it answered no refusal. -/
theorem unlessRefused_next {s t : State} {o : Host.Outcome State Fault Refusal} (h : unlessRefused s o = .next t) :
    o = .next t ∧ ∀ q, t.responses ≠ s.responses ++ [.refused q] := by
  cases o with
  | next u =>
    have hu : u = t := by
      simp only [unlessRefused] at h
      split at h
      · cases h
      · cases h; rfl
    subst hu
    refine ⟨rfl, fun q hq => ?_⟩
    rw [unlessRefused_refused hq] at h
    cases h
  | fault f => cases h
  | refused r => cases h

/-- The step of a wait in progress is its next iteration: it never answers a refusal. -/
theorem step_waiting {s : State} (h : s.activity = .waiting) : step s = .next (pollOnce s) := by
  have hb : blockStep s = .next (pollOnce s) := by simp [blockStep, fetch, h]
  rw [step, hb]
  unfold pollOnce
  split
  · rename_i t ht
    exact unlessRefused_accepted (r := .ok .unit) (by rw [(transport_eq ht).2]; rfl) rfl
  · rename_i t ht
    split
    · exact unlessRefused_silent (by rw [(transport_eq ht).2]; rfl)
    · exact unlessRefused_accepted (r := .ok .unit) (by rw [(transport_eq ht).2]; rfl) rfl

end Sys2Proof.Machine
end

