-- ==== Sys2Proof/Tests/Slice0.lean ====
section
/-! SUPPORT. The model's own tests. Expected values come from spec/95_test_vectors.md (L1, L2, L3) or are written out by
hand from the rule a test names. The witnesses at the end meet the hypotheses of the statements. -/

namespace Sys2Proof.Tests

open Sys2Proof Sys2Proof.Machine

/-! A state from the parts a test fixes, and what a test looks at. -/

/-- The parameters the vectors use: `MAX_XFER` is 4096, `REG_LAYOUT` at its default. -/
def testConfig (form : EraseAddressForm) : Config :=
  { eraseAddressForm := form, quadReadMethod := .fastReadQuadOutput, xferMargin := 1984
    regLayout := regLayout }

/-- An idle attached block in a mode, with the environment's answers ready. -/
def blockIn (m : Mode) (answers : List Answer) : State :=
  { State.reset with mode := some m, env := .script answers, config := testConfig .pageAsGiven }

/-- The same under the other form of the erase address. -/
def alignedBlock (answers : List Answer) : State :=
  { State.reset with mode := some .write, env := .script answers, config := testConfig .blockAligned }

/-- A detached block. -/
def detachedBlock : State := { State.beforeCreation with config := testConfig .pageAsGiven }

/-- A block with a request on its port. -/
def sent (frame : List Byte) (s : State) : State := { s with requests := [frame] }

/-- A block with a wait in progress. -/
def waitingBlock (answers : List Answer) : State := { blockIn .read answers with activity := .waiting }

/-- Where an outcome leaves the block: its mode, its responses, the calls it made. -/
def seen : Host.Outcome State Fault Refusal → Option (Option Mode × List Response × List Call)
  | .next t => some (t.mode, t.responses, t.transcript.map fun e => e.call)
  | .fault _ => none
  | .refused _ => none

/-- The fault an outcome stops with. -/
def faulted : Host.Outcome State Fault Refusal → Option Fault
  | .next _ => none
  | .fault f => some f
  | .refused _ => none

/-- The refusal an outcome stops with. -/
def stopped : Host.Outcome State Fault Refusal → Option Refusal
  | .next _ => none
  | .fault _ => none
  | .refused r => some r

/-- The state of an outcome that goes on. -/
def after (o : Host.Outcome State Fault Refusal) (s : State) : State :=
  match o with
  | .next t => t
  | .fault _ => s
  | .refused _ => s

/-- `T(05/C0)`. -/
def statusRead : Call := .transfer ⟨0x05, .one, some ⟨0xC0, 1, .one⟩, none, 0, some .one⟩ 1

/-- Every field of the protection register 0. -/
def protZero : ProtectionRegister := ⟨false, false, false, false, false, false, false, false⟩

/-! Well-formed instructions: each check refuses a term. -/

theorem test_wf_read_length_zero : (Instr.readDataBuffer .fastRead 0 0).wf = false := by decide
theorem test_wf_read_length_too_long : (Instr.readDataBuffer .fastRead 0 65536).wf = false := by decide
theorem test_wf_load_empty : (Instr.loadToDataBuffer .quad true 0 []).wf = false := by decide
theorem test_wf_load_too_long (data : List Byte) (h : data.length = 65536) :
    (Instr.loadToDataBuffer .quad true 0 data).wf = false := by
  simp [Instr.wf, frameLengthWf, h]
theorem test_wf_command_loads_empty :
    (Instr.cmdLoadClearSingle 0 []).wf = false ∧ (Instr.cmdLoadRandomSingle 0 []).wf = false ∧
      (Instr.cmdLoadClearQuad 0 []).wf = false ∧ (Instr.cmdLoadRandomQuad 0 []).wf = false := by decide
theorem test_wf_command_reads_empty :
    (Instr.cmdFastRead 0 0).wf = false ∧ (Instr.cmdFastReadDualOutput 0 0).wf = false ∧
      (Instr.cmdFastReadQuadOutput 0 0).wf = false ∧ (Instr.cmdFastReadDualIO 0 0).wf = false ∧
      (Instr.cmdFastReadQuadIO 0 0).wf = false := by decide
theorem test_wf_accepts : (Instr.readDataBuffer .fastRead 0 65535).wf = true ∧ (Instr.cmdFastRead 0 1).wf = true := by
  decide

/-! Request frames, written out from the table of R94. -/

theorem test_decode_plain_requests :
    decodeRequest regLayout [0x00] = .instr .create [] ∧ decodeRequest regLayout [0x01] = .instr .release [] ∧
      decodeRequest regLayout [0x02] = .instr .resetDevice [] ∧ decodeRequest regLayout [0x03] = .instr .getJedecId [] ∧
      decodeRequest regLayout [0x04] = .instr .checkBusy [] ∧ decodeRequest regLayout [0x05] = .instr .waitWhileBusy [] ∧
      decodeRequest regLayout [0x06] = .instr .readStatusRegister [] ∧ decodeRequest regLayout [0x07] = .instr .readProtectionRegister [] ∧
      decodeRequest regLayout [0x08] = .instr .readConfigurationRegister [] ∧
      decodeRequest regLayout [0x0F] = .instr .readBbmLookupTable [] ∧ decodeRequest regLayout [0x10] = .instr .enableWrite [] ∧
      decodeRequest regLayout [0x11] = .instr .disableWrite [] := by decide

theorem test_decode_register_requests :
    decodeRequest regLayout [0x09, 0x81] =
        .instr (.writeProtectionRegister ⟨true, false, false, false, false, false, false, true⟩) [] ∧
      decodeRequest regLayout [0x0A, 0x18] = .instr (.writeConfigurationRegister ⟨false, false, false, true, true⟩) [] ∧
      decodeRequest regLayout [0x0B, 0x7C] = .instr (.setWriteProtection ⟨false, true, true, true, true, true, false, false⟩) [] ∧
      decodeRequest regLayout [0x0C, 0x01] = .instr (.setContinuousReadMode true) [] ∧
      decodeRequest regLayout [0x0C, 0x00] = .instr (.setContinuousReadMode false) [] := by decide

theorem test_decode_address_requests :
    decodeRequest regLayout [0x0D, 0x00, 0x01] = .instr (.readMemoryToDataBuffer 0x0001) [] ∧
      decodeRequest regLayout [0x12, 0x00, 0x47] = .instr (.erase128kbBlock 0x0047) [] ∧
      decodeRequest regLayout [0x14, 0x12, 0x34] = .instr (.writeDataBufferToMemory 0x1234) [] ∧
      decodeRequest regLayout [0x0E, 0x00, 0x00, 0x00, 0x08, 0x40] = .instr (.readDataBuffer .fastRead 0x0000 2112) [] ∧
      decodeRequest regLayout [0x0E, 0x04, 0x01, 0x23, 0x00, 0x10] = .instr (.readDataBuffer .fastReadQuadIO 0x0123 16) [] := by
  decide

/-- L1.10, the spec's own example. -/
theorem test_decode_load_example :
    decodeRequest regLayout [0x13, 0x00, 0x01, 0x00, 0x00, 0x00, 0x05, 0x00, 0x01, 0x02, 0x03, 0x2A] =
      .instr (.loadToDataBuffer .single true 0x0000 [0, 1, 2, 3, 42]) [] := by decide

/-- The refusals of L2.3 that need no state. -/
theorem test_decode_refusals :
    decodeRequest regLayout [0x15] = .refused .unknownOperation ∧ decodeRequest regLayout [0xFF] = .refused .unknownOperation ∧
      decodeRequest regLayout [0x0E, 0x05, 0x00, 0x00, 0x00, 0x10] = .refused .badOperand ∧
      decodeRequest regLayout [0x0C, 0x02] = .refused .badOperand ∧ decodeRequest regLayout [0x12, 0x00] = .refused .badOperand ∧
      decodeRequest regLayout [0x13, 0x02, 0x01, 0x00, 0x00, 0x00, 0x01, 0x00] = .refused .badOperand ∧
      decodeRequest regLayout [0x13, 0x00, 0x02, 0x00, 0x00, 0x00, 0x01, 0x00] = .refused .badOperand ∧
      decodeRequest regLayout [0x13, 0x00, 0x01, 0x00, 0x00, 0x00, 0x02, 0x00] = .refused .badOperand := by decide

/-! Transport calls, written out from the descriptors of L2.2. -/

theorem test_decode_control_commands :
    decodeCall (.write ⟨0xFF, .one, none, none, 0, none⟩ []) = some .cmdDeviceReset ∧
      decodeCall (.transfer ⟨0x9F, .one, none, none, 8, some .one⟩ 3) = some .cmdJedecId ∧
      decodeCall (.transfer ⟨0x05, .one, some ⟨0xC0, 1, .one⟩, none, 0, some .one⟩ 1) = some (.cmdReadRegister .status) ∧
      decodeCall (.transfer ⟨0x05, .one, some ⟨0xA0, 1, .one⟩, none, 0, some .one⟩ 1) =
        some (.cmdReadRegister .protection) ∧
      decodeCall (.transfer ⟨0x05, .one, some ⟨0xB0, 1, .one⟩, none, 0, some .one⟩ 1) =
        some (.cmdReadRegister .configuration) ∧
      decodeCall (.write ⟨0x01, .one, none, none, 0, some .one⟩ [0xA0, 0x7C]) =
        some (.cmdWriteRegister .protection 0x7C) ∧
      decodeCall (.write ⟨0x01, .one, none, none, 0, some .one⟩ [0xB0, 0x18]) =
        some (.cmdWriteRegister .configuration 0x18) ∧
      decodeCall (.write ⟨0x06, .one, none, none, 0, none⟩ []) = some .cmdWriteEnable ∧
      decodeCall (.write ⟨0x04, .one, none, none, 0, none⟩ []) = some .cmdWriteDisable ∧
      decodeCall (.transfer ⟨0xA5, .one, none, none, 8, some .one⟩ 80) = some .cmdReadBbmLut := by decide

theorem test_decode_page_commands :
    decodeCall (.write ⟨0xD8, .one, some ⟨0x0040, 2, .one⟩, none, 8, none⟩ []) = some (.cmdBlockErase 0x0040) ∧
      decodeCall (.write ⟨0x13, .one, some ⟨0x0001, 2, .one⟩, none, 8, none⟩ []) = some (.cmdPageDataRead 0x0001) ∧
      decodeCall (.write ⟨0x10, .one, some ⟨0x1234, 2, .one⟩, none, 8, none⟩ []) = some (.cmdProgramExecute 0x1234) := by
  decide

theorem test_decode_load_commands :
    decodeCall (.write ⟨0x02, .one, some ⟨0x0000, 2, .one⟩, none, 0, some .one⟩ [0, 1, 2, 3, 0x2A]) =
        some (.cmdLoadClearSingle 0x0000 [0, 1, 2, 3, 42]) ∧
      decodeCall (.write ⟨0x84, .one, some ⟨0x0005, 2, .one⟩, none, 0, some .one⟩ [0xAA]) =
        some (.cmdLoadRandomSingle 0x0005 [0xAA]) ∧
      decodeCall (.write ⟨0x32, .one, some ⟨0x0800, 2, .one⟩, none, 0, some .four⟩ [0xDE, 0xAD]) =
        some (.cmdLoadClearQuad 0x0800 [0xDE, 0xAD]) ∧
      decodeCall (.write ⟨0x34, .one, some ⟨0x0000, 2, .one⟩, none, 0, some .four⟩ [0x01]) =
        some (.cmdLoadRandomQuad 0x0000 [0x01]) := by decide

theorem test_decode_fast_read_commands :
    decodeCall (.transfer ⟨0x0B, .one, some ⟨0x0000, 2, .one⟩, none, 8, some .one⟩ 2112) = some (.cmdFastRead 0 2112) ∧
      decodeCall (.transfer ⟨0x3B, .one, some ⟨0x0010, 2, .one⟩, none, 8, some .two⟩ 16) =
        some (.cmdFastReadDualOutput 0x0010 16) ∧
      decodeCall (.transfer ⟨0x6B, .one, some ⟨0x0000, 2, .one⟩, none, 8, some .four⟩ 16) =
        some (.cmdFastReadQuadOutput 0x0000 16) ∧
      decodeCall (.transfer ⟨0xBB, .one, some ⟨0x0123, 2, .two⟩, none, 4, some .two⟩ 16) =
        some (.cmdFastReadDualIO 0x0123 16) ∧
      decodeCall (.transfer ⟨0xEB, .one, some ⟨0x0123, 2, .four⟩, none, 4, some .four⟩ 16) =
        some (.cmdFastReadQuadIO 0x0123 16) := by decide

/-- R97: a sub-address, a write to the status register, an instruction byte, a dummy count and a line count that no call of
this block has. -/
theorem test_decode_calls_never_built :
    decodeCall (.transfer ⟨0x05, .one, some ⟨0xD0, 1, .one⟩, none, 0, some .one⟩ 1) = none ∧
      decodeCall (.write ⟨0x01, .one, none, none, 0, some .one⟩ [0xC0, 0x00]) = none ∧
      decodeCall (.write ⟨0x66, .one, none, none, 0, none⟩ []) = none ∧
      decodeCall (.write ⟨0xD8, .one, some ⟨0x0040, 2, .one⟩, none, 0, none⟩ []) = none ∧
      decodeCall (.write ⟨0x06, .four, none, none, 0, none⟩ []) = none := by decide

/-- The wire streams of L2.2 for 0x0B and 0xBB; none for 0xD8 (I9). -/
theorem test_wire_streams :
    wirePhases (callFastRead 0x0000 2112) =
        some [.out [0x0B] .one, .out [0x00, 0x00] .one, .dummyClocks 8, .receive 2112 .one] ∧
      (wirePhases (callFastReadDualIO 0x0123 16)).map (fun l => l.map phaseClocks) = some [8, 8, 4, 64] ∧
      wirePhases (callBlockErase 0x0040) = none := by decide

/-- The words of the opcode table: a request, a request whose byte a command shares, two commands, one of them with the
table's bit 8. -/
theorem test_table_words :
    decodeTableWord 8 0x14 = some (.writeDataBufferToMemory 0) ∧ decodeTableWord 8 0x05 = some .waitWhileBusy ∧
      decodeTableWord 8 0x84 = some (.cmdLoadRandomSingle 0 [0]) ∧ decodeTableWord 16 0x13 = some (.cmdPageDataRead 0) ∧
      decodeTableWord 8 0x15 = none := by decide

theorem test_table_word_runs :
    seen (step ((blockIn .read [.ok [0x00]]).withFetchWord 8 0x04)) = some (some .read, [.ok (.bool false)], [statusRead]) := by
  decide

/-- R95: the shorthands. -/
theorem test_pseudo_operations :
    expandPseudo (testConfig .pageAsGiven) (.quadReadDataBuffer 0 2112) = .readDataBuffer .fastReadQuadOutput 0 2112 ∧
      expandPseudo (testConfig .pageAsGiven) (.singleReadDataBuffer 0 8) = .readDataBuffer .fastRead 0 8 ∧
      expandPseudo (testConfig .pageAsGiven) (.singleLoadToDataBuffer false 5 [1]) =
        .loadToDataBuffer .single false 5 [1] ∧
      expandPseudo (testConfig .pageAsGiven) (.quadLoadToDataBuffer true 5 [1]) = .loadToDataBuffer .quad true 5 [1] := by
  decide

/-! The register codec, L2.1. -/

theorem test_decode_status :
    decodeStatus regLayout.status 0x13 = ⟨true, true, false, false, .correctedSuccessfully, false⟩ ∧
      decodeStatus regLayout.status 0xFE = ⟨false, true, true, true, .multiPageError, true⟩ ∧
      decodeStatus regLayout.status 0x20 = ⟨false, false, false, false, .singlePageError, false⟩ ∧
      decodeStatus regLayout.status 0x40 = ⟨false, false, false, false, .successful, true⟩ ∧ decodeStatus regLayout.status 0x80 = decodeStatus regLayout.status 0x00 := by
  decide

theorem test_encode_protection :
    encodeProtection regLayout.protection ⟨false, true, true, true, true, true, false, false⟩ = 0x7C ∧
      encodeProtection regLayout.protection ⟨true, false, false, false, false, false, false, true⟩ = 0x81 ∧
      decodeProtection regLayout.protection 0x02 = ⟨false, false, false, false, false, false, true, false⟩ := by decide

theorem test_encode_configuration :
    encodeConfiguration regLayout.configuration ⟨false, false, false, true, true⟩ = 0x18 ∧
      encodeConfiguration regLayout.configuration ⟨true, false, true, false, false⟩ = 0xA0 ∧ encodeConfiguration regLayout.configuration (decodeConfiguration regLayout.configuration 0xFF) = 0xF8 ∧
      encodeConfiguration regLayout.configuration (decodeConfiguration regLayout.configuration 0x07) = 0x00 := by decide

/-- A layout other than the default one: the busy bit and `buf` stand elsewhere. -/
def movedLayout : RegLayout :=
  { regLayout with
    status := { regLayout.status with deviceBusy := 7 }
    configuration := { regLayout.configuration with buf := 0 } }

/-- `REG_LAYOUT` is a parameter (R12): a machine with another one reads and writes its bits there. -/
theorem test_layout_is_a_parameter :
    seen (exec .checkBusy
        { blockIn .read [.ok [0x80]] with config := { testConfig .pageAsGiven with regLayout := movedLayout } }) =
        some (some .read, [.ok (.bool true)], [statusRead]) ∧
      decodeRequest movedLayout [0x0A, 0x01] =
        .instr (.writeConfigurationRegister ⟨false, false, false, false, true⟩) [] := by decide

/-- The erase addresses of L2.7. -/
theorem test_erase_addresses :
    eraseAddress .blockAligned 0x0047 = 0x0040 ∧ eraseAddress .blockAligned 0x007F = 0x0040 ∧
      eraseAddress .blockAligned 0xFFFF = 0xFFC0 ∧ eraseAddress .pageAsGiven 0x0047 = 0x0047 := by decide

/-! The requests, L2.3 to L2.8. -/

theorem test_create :
    seen (step (sent [0x00] detachedBlock)) = some (some .read, [.ok .unit], []) ∧
      seen (blockStep (sent [0x00] (blockIn .read []))) = some (some .read, [.refused .alreadyAttached], []) ∧
      stopped (step (sent [0x00] (blockIn .read []))) = some (.request .alreadyAttached) := by decide

theorem test_release : seen (exec .release (blockIn .write [])) = some (none, [.ok .unit], []) := by decide

theorem test_reset_device :
    seen (exec .resetDevice (blockIn .write [.ok []])) =
        some (some .write, [.ok .unit], [.write ⟨0xFF, .one, none, none, 0, none⟩ []]) ∧
      seen (exec .resetDevice (blockIn .read [.err .busy])) =
        some (some .read, [.err .transportBusy], [.write ⟨0xFF, .one, none, none, 0, none⟩ []]) := by decide

theorem test_get_jedec_id :
    seen (exec .getJedecId (blockIn .write [.ok [0xEF, 0xAA, 0x21]])) =
      some (some .write, [.ok (.bytes [0xEF, 0xAA, 0x21])], [.transfer ⟨0x9F, .one, none, none, 8, some .one⟩ 3]) := by
  decide

theorem test_check_busy :
    seen (exec .checkBusy (blockIn .read [.ok [0x01]])) = some (some .read, [.ok (.bool true)], [statusRead]) ∧
      seen (exec .checkBusy (blockIn .read [.err .address])) = some (some .read, [.err .transportAddress], [statusRead]) := by
  decide

theorem test_wait_single_query :
    seen (exec .waitWhileBusy (blockIn .read [.ok [0x00], .ok [0x01]])) = some (some .read, [.ok .unit], [statusRead]) := by
  decide

/-- Responses 0x01, then a failure: the error is swallowed after two reads. -/
theorem test_wait_swallows_errors :
    seen (exec .waitWhileBusy (blockIn .read [.ok [0x01], .err .unknown])) = some (some .read, [], [statusRead]) ∧
      seen (step (after (exec .waitWhileBusy (blockIn .read [.ok [0x01], .err .unknown])) detachedBlock)) =
        some (some .read, [.ok .unit], [statusRead, statusRead]) := by decide

theorem test_read_status_register :
    seen (exec .readStatusRegister (blockIn .write [.ok [0x03]])) =
      some (some .write, [.ok (.status ⟨true, true, false, false, .successful, false⟩)], [statusRead]) := by decide

theorem test_read_protection_register :
    seen (exec .readProtectionRegister (blockIn .read [.ok [0x00], .ok [0x7C]])) =
      some (some .read, [.ok (.protection ⟨false, true, true, true, true, true, false, false⟩)],
        [statusRead, .transfer ⟨0x05, .one, some ⟨0xA0, 1, .one⟩, none, 0, some .one⟩ 1]) := by decide

theorem test_read_configuration_register :
    seen (exec .readConfigurationRegister (blockIn .read [.ok [0x00], .ok [0x1F]])) =
        some (some .read, [.ok (.configuration ⟨false, false, false, true, true⟩)],
          [statusRead, .transfer ⟨0x05, .one, some ⟨0xB0, 1, .one⟩, none, 0, some .one⟩ 1]) ∧
      seen (exec .readConfigurationRegister (blockIn .read [.ok [0x01]])) =
        some (some .read, [.err .deviceBusy], [statusRead]) := by decide

theorem test_write_protection_register :
    seen (exec (.writeProtectionRegister ⟨true, false, false, false, false, false, false, true⟩)
        (blockIn .read [.ok [0x00], .ok []])) =
      some (some .read, [.ok .unit], [statusRead, .write ⟨0x01, .one, none, none, 0, some .one⟩ [0xA0, 0x81]]) := by decide

theorem test_write_configuration_register :
    seen (exec (.writeConfigurationRegister ⟨false, false, false, true, true⟩) (blockIn .read [.ok [0x00], .ok []])) =
      some (some .read, [.ok .unit], [statusRead, .write ⟨0x01, .one, none, none, 0, some .one⟩ [0xB0, 0x18]]) := by decide

theorem test_set_write_protection :
    seen (exec (.setWriteProtection protZero) (blockIn .write [.ok [0x00], .ok []])) =
      some (some .write, [.ok .unit], [statusRead, .write ⟨0x01, .one, none, none, 0, some .one⟩ [0xA0, 0x00]]) := by decide

theorem test_set_continuous_read_mode :
    seen (exec (.setContinuousReadMode false) (blockIn .read [.ok [0x00], .ok [0xFF], .ok []])) =
        some (some .read, [.ok .unit],
          [statusRead, .transfer ⟨0x05, .one, some ⟨0xB0, 1, .one⟩, none, 0, some .one⟩ 1,
            .write ⟨0x01, .one, none, none, 0, some .one⟩ [0xB0, 0xF8]]) ∧
      seen (exec (.setContinuousReadMode true) (blockIn .read [.ok [0x00], .err .busy])) =
        some (some .read, [.err .transportBusy],
          [statusRead, .transfer ⟨0x05, .one, some ⟨0xB0, 1, .one⟩, none, 0, some .one⟩ 1]) := by decide

theorem test_read_memory_to_data_buffer :
    seen (exec (.readMemoryToDataBuffer 0xFFFF) (blockIn .read [.ok [0x00], .ok []])) =
      some (some .read, [.ok .unit],
        [statusRead, .write ⟨0x13, .one, some ⟨0xFFFF, 2, .one⟩, none, 8, none⟩ []]) := by decide

theorem test_read_data_buffer :
    seen (exec (.readDataBuffer .fastReadQuadOutput 0x0000 1) (blockIn .read [.ok [0x00], .ok [0x5A]])) =
        some (some .read, [.ok (.bytes [0x5A])],
          [statusRead, .transfer ⟨0x6B, .one, some ⟨0x0000, 2, .one⟩, none, 8, some .four⟩ 1]) ∧
      seen (exec (.readDataBuffer .fastRead 0x0000 4097) (blockIn .read [.ok [0x00]])) =
        some (some .read, [.refused .badOperand], []) := by decide

theorem test_read_bbm_lookup_table :
    seen (exec .readBbmLookupTable (blockIn .read [.ok [0x00], .err .unknown])) =
      some (some .read, [.err .transportUnknown],
        [statusRead, .transfer ⟨0xA5, .one, none, none, 8, some .one⟩ 80]) := by decide

/-- L2.8: a present entry, a zero half and a high bit kept raw. -/
theorem test_lut_entries :
    lutEntry 0x00 0x05 0x03 0xE8 = some (5, 1000) ∧ lutEntry 0x00 0x00 0x00 0x01 = some (0, 1) ∧
      lutEntry 0x80 0x0A 0x00 0x0B = some (0x800A, 0x000B) ∧ lutEntry 0 0 0 0 = none ∧
      lutSlot (List.replicate 76 0 ++ [0xFF, 0xFF, 0xFF, 0xFF]) 19 = some (0xFFFF, 0xFFFF) := by decide

theorem test_enable_write :
    seen (exec .enableWrite (blockIn .read [.ok [0x00], .ok []])) =
        some (some .write, [.ok .unit], [statusRead, .write ⟨0x06, .one, none, none, 0, none⟩ []]) ∧
      seen (exec .enableWrite (blockIn .read [.ok [0x00], .err .busy])) =
        some (some .read, [.err .transportBusy], [statusRead, .write ⟨0x06, .one, none, none, 0, none⟩ []]) := by decide

theorem test_disable_write :
    seen (exec .disableWrite (blockIn .write [.ok [0x02], .ok []])) =
        some (some .read, [.ok .unit], [statusRead, .write ⟨0x04, .one, none, none, 0, none⟩ []]) ∧
      seen (exec .disableWrite (blockIn .write [.ok [0x03]])) = some (some .write, [.err .deviceBusy], [statusRead]) := by
  decide

/-- Erase ignores `write_failure`; its post-check failure comes with the mode already `Read`. -/
theorem test_erase_128kb_block :
    seen (exec (.erase128kbBlock 0x0047) (blockIn .write [.ok [0x02], .ok [], .ok [0x08]])) =
        some (some .read, [.ok .unit],
          [statusRead, .write ⟨0xD8, .one, some ⟨0x0047, 2, .one⟩, none, 8, none⟩ [], statusRead]) ∧
      seen (exec (.erase128kbBlock 0x0047) (alignedBlock [.ok [0x02], .ok [], .ok [0x05]])) =
        some (some .read, [.err .writeFailure],
          [statusRead, .write ⟨0xD8, .one, some ⟨0x0040, 2, .one⟩, none, 8, none⟩ [], statusRead]) := by decide

theorem test_load_to_data_buffer :
    seen (exec (.loadToDataBuffer .quad true 0x0800 [0xDE, 0xAD]) (blockIn .write [.ok [0x02], .ok []])) =
        some (some .write, [.ok .unit],
          [statusRead, .write ⟨0x32, .one, some ⟨0x0800, 2, .one⟩, none, 0, some .four⟩ [0xDE, 0xAD]]) ∧
      seen (exec (.loadToDataBuffer .single true 0x0000 [0]) (blockIn .read [])) =
        some (some .read, [.refused .wrongMode], []) := by decide

theorem test_write_data_buffer_to_memory :
    seen (exec (.writeDataBufferToMemory 0x0000) (blockIn .write [.ok [0x02], .ok [], .ok [0x08]])) =
        some (some .read, [.err .writeFailure],
          [statusRead, .write ⟨0x10, .one, some ⟨0x0000, 2, .one⟩, none, 8, none⟩ [], statusRead]) ∧
      seen (exec (.writeDataBufferToMemory 0x0000) (blockIn .write [.ok [0x02], .err .busy])) =
        some (some .write, [.err .transportBusy],
          [statusRead, .write ⟨0x10, .one, some ⟨0x0000, 2, .one⟩, none, 8, none⟩ []]) := by decide

/-- L2.3: attachment, then the code and the operands, then the mode. -/
theorem test_admission_attachment_first :
    seen (blockStep (sent [0x15] detachedBlock)) = some (none, [.refused .notAttached], []) ∧
      seen (blockStep (sent [0x0E, 0x00, 0x00, 0x00, 0x00, 0x00] (blockIn .read []))) =
        some (some .read, [.refused .badOperand], []) := by decide

theorem test_admission_operands_before_mode :
    seen (blockStep (sent [0x13, 0x00, 0x01, 0x00, 0x00, 0x00, 0x00] (blockIn .read []))) =
        some (some .read, [.refused .badOperand], []) ∧
      seen (blockStep (sent [0x12, 0x00, 0x47] (blockIn .read []))) = some (some .read, [.refused .wrongMode], []) := by decide

/-- R116 and L1.4, and the first line of P3: the block refuses the wrong mode, and the machine's step gives it no meaning. -/
theorem test_wrong_mode_is_a_refusal_outcome :
    stopped (step (sent [0x13, 0x00, 0x01, 0x00, 0x00, 0x00, 0x01, 0x00] (blockIn .read []))) =
        some (.request .wrongMode) ∧
      stopped (step (sent [0x12, 0x00, 0x47] (blockIn .read []))) = some (.request .wrongMode) ∧
      stopped (step (sent [0x10] (blockIn .write []))) = some (.request .wrongMode) := by decide

/-! Bus commands alone. -/

theorem test_command_is_its_call :
    seen (step { blockIn .read [.ok []] with framed := some callWriteEnable }) =
        some (some .read, [], [.write ⟨0x06, .one, none, none, 0, none⟩ []]) ∧
      faulted (exec .cmdWriteEnable detachedBlock) = some .noTransport ∧
      seen (exec (.cmdFastRead 0 0) (blockIn .read [])) = some (some .read, [.refused .badOperand], []) ∧
      stopped (step { blockIn .read [] with framed := some (.write ⟨0x66, .one, none, none, 0, none⟩ []) }) =
        some .neverBuilt := by decide

/-! The reference device. -/

/-- A device with an empty page array, busy for one status read after a long operation. -/
def testChip : Chip :=
  { erased := 0xFF, pages := [(2112 * 64, 0x33)], buffer := [(0, 0x11), (2, 0x11)], protection := 0x7C
    configuration := 0x18, writeEnabled := true, busyReads := 0, delays := [1], eraseFailure := false
    writeFailure := false, ecc0 := false, ecc1 := false
    eccOutcomes := [.singlePageError], statusReserved := 0xFF, lutFull := false, lut := [0x00, 0x05, 0x03, 0xE8]
    jedecId := [0xEF, 0xAA, 0x21] }

/-- The corner of L2.7: a random load keeps the other bytes, a load with clear erases them. -/
theorem test_device_loads :
    (chipLoad false 0x0002 [0x22] testChip).buffer = [(0, 0x11), (2, 0x22)] ∧
      (chipLoad true 0x0002 [0x22] testChip).buffer = [(2, 0x22)] := by decide

theorem test_device_program_and_erase :
    (chipProgram 0x0040 testChip).pages = [(2112 * 64, 0x11), (2112 * 64 + 2, 0x11)] ∧
      (chipErase 0x0047 testChip).pages = [] ∧ (chipErase 0x0003 testChip).pages = [(2112 * 64, 0x33)] := by decide

/-- A page data read reports its ECC outcome in `ecc0` and `ecc1` (R64, R34), and a bit that holds no field shows the
device's own value (I8). -/
theorem test_device_reports_ecc :
    (decodeStatus regLayout.status (statusByte regLayout.status (chipStage 0x0040 testChip))).eccStatus = .singlePageError ∧
      (statusByte regLayout.status testChip).getLsbD 7 = true ∧
      (statusByte regLayout.status { testChip with statusReserved := 0x7F }).getLsbD 7 = false := by decide

/-- A fast read in continuous read mode (`buf` 0) leaves the device there, as it is (R52), with no bytes of its own (I15);
one that runs beyond the buffer is not answered (I5). -/
theorem test_device_continuous_read :
    chipAnswer regLayout (callFastRead 0 2) { testChip with configuration := 0x10 } =
        some ([], { testChip with configuration := 0x10 }) ∧
      chipAnswer regLayout (callFastRead 0 2) testChip = some ([0x11, 0xFF], testChip) ∧
      chipAnswer regLayout (callFastRead 2112 1) { testChip with configuration := 0x10 } = none := by decide

theorem test_device_answers_the_block :
    seen (exec (.erase128kbBlock 0x0040) { blockIn .write [] with env := .device testChip }) =
      some (some .read, [.ok .unit],
        [statusRead, .write ⟨0xD8, .one, some ⟨0x0040, 2, .one⟩, none, 8, none⟩ [], statusRead]) := by decide

/-! Witnesses: states and operands that meet the hypotheses of the statements, clause by clause. -/

/-- The result of a call. -/
def resultOf (c : Call) (s : State) : CallResult := (transport c s).1

/-- The state after a call. -/
def afterCall (c : Call) (s : State) : State := (transport c s).2

/-- EncodedInstructionsDecode, CutFramesAreBadOperands, SurplusFrameBytesIgnored, PlacedInstructionRunsNext: lengths 1 and
65535. -/
theorem witness_well_formed :
    (Instr.readDataBuffer .fastRead 0 1).wf = true ∧ (Instr.readDataBuffer .fastReadQuadIO 0xFFFF 65535).wf = true ∧
      encode regLayout (.readDataBuffer .fastRead 0 1) = .frame [0x0E, 0x00, 0x00, 0x00, 0x00, 0x01] ∧
      encode regLayout (.cmdFastRead 0 1) = .call (callFastRead 0 1) ∧ (Instr.cmdFastRead 0 1).wf = true := by decide

/-- ReservedRequestBytesRefused, at the first value beyond each range. -/
theorem witness_reserved_bytes :
    0x14 < (0x15 : Byte).toNat ∧ 4 < (0x05 : Byte).toNat ∧ 1 < (0x02 : Byte).toNat := by decide

/-- DecodedCallsEncodeBack, BuiltDescriptorsAreLegal and its clauses on 0x01 and 0x05. -/
theorem witness_decoded_calls :
    decodeCall (.write ⟨0x01, .one, none, none, 0, some .one⟩ [0xB0, 0x18]) =
        some (.cmdWriteRegister .configuration 0x18) ∧
      decodeCall statusRead = some (.cmdReadRegister .status) := by decide

/-- EncodedInstructionsDecode, SurplusFrameBytesIgnored, PlacedInstructionRunsNext, CodecRoundTripsInAnyLayout,
SetContinuousReadModeRewrites, DeviceProgramStageRead: the default layout is one of them, and so is another; bit 2 of the
configuration byte holds no field. -/
theorem witness_layout :
    regLayout.Distinct ∧ movedLayout.Distinct ∧ (blockIn .read []).config.regLayout.Distinct ∧
      (2 : Fin 8) ∉ regLayout.configuration.bits := by decide

/-- EnvironmentIsAnOracle: a failure, a write's result, a transfer's result. -/
theorem witness_oracle :
    ResultFits statusRead (.err .busy) ∧ ResultFits callWriteEnable (.ok []) ∧ ResultFits statusRead (.ok [0x5A]) :=
  ⟨trivial, rfl, rfl⟩

/-- StepRunsTheDecodedInstruction, its first clause and then the other two. -/
theorem witness_request :
    (sent [0x04] (blockIn .read [])).activity = .idle ∧ (sent [0x04] (blockIn .read [])).framed = none ∧
      (sent [0x04] (blockIn .read [])).requests = [0x04] :: [] ∧ decodeRequest regLayout [0x04] = .instr .checkBusy [] := by decide

theorem witness_framed :
    ({ blockIn .read [] with framed := some callWriteEnable }).activity = .idle ∧
      ({ blockIn .read [] with framed := some callWriteEnable }).framed = some callWriteEnable ∧
      decodeCall callWriteEnable = some .cmdWriteEnable ∧
      decodeCall (.write ⟨0x66, .one, none, none, 0, none⟩ []) = none := by decide

/-- WaitInProgressHoldsRequests, WaitIteration (each clause), WaitPostcondition, WaitHasNoBound. -/
theorem witness_wait :
    (waitingBlock []).activity = .waiting ∧
      resultOf (callReadRegister .status) (waitingBlock [.err .unknown]) = .err .unknown ∧
      resultOf (callReadRegister .status) (waitingBlock [.ok [0x02]]) = .ok [0x02] ∧
      (decodeStatus regLayout.status 0x02).deviceBusy = false ∧
      resultOf (callReadRegister .status) (waitingBlock [.ok [0x01]]) = .ok [0x01] ∧
      (decodeStatus regLayout.status 0x01).deviceBusy = true := by decide

theorem witness_wait_ends :
    seen (step (waitingBlock [.ok [0x02]])) = some (some .read, [.ok .unit], [statusRead]) ∧
      seen (exec .waitWhileBusy (blockIn .read [.err .busy])) = some (some .read, [.ok .unit], [statusRead]) := by decide

theorem witness_wait_without_bound :
    isBusy regLayout.status 0x01 = true ∧
      (waitingBlock (List.replicate 2 (.ok [0x01]) ++ [.ok [0x00]])).env =
        .script (List.replicate 2 (.ok [0x01]) ++ [.ok [0x00]]) := by decide

/-- IdleBlockWaits, UndecodedFrameRefused (both clauses). -/
theorem witness_idle :
    (blockIn .read []).activity = .idle ∧ (blockIn .read []).framed = none ∧ (blockIn .read []).requests = [] ∧
      decodeRequest regLayout [0x15] = .refused .unknownOperation ∧ (sent [0x15] (blockIn .read [])).life = .attached ∧
      (sent [0x15] detachedBlock).life = .detached := by decide

/-- StepKeepsInvariant: a state other than reset, with a call in its transcript, that meets the invariant and steps. -/
theorem witness_invariant :
    (afterCall (callReadRegister .status) (waitingBlock [.ok [0x01], .ok [0x00]])).Inv :=
  { modeHeld := by decide
    waitAttached := by decide
    counted := by decide
    legal := fun e he => by
      rw [List.mem_singleton.mp he]
      exact ⟨built_readRegister _ _, rfl⟩
    envWf := trivial
    layoutDistinct := by decide
    safe := fun _ h => nomatch h }

theorem witness_invariant_step :
    seen (step (afterCall (callReadRegister .status) (waitingBlock [.ok [0x01], .ok [0x00]]))) =
      some (some .read, [.ok .unit], [statusRead, statusRead]) := by decide

/-- DeviceLoadWritesTheBuffer (a load that ends at the buffer's last byte), DeviceProgramStageRead,
DeviceEraseClearsTheBlock; BusyDeviceIgnoresCommands. -/
theorem witness_device :
    chipWf testChip ∧ testChip.busyReads = 0 ∧ testChip.writeEnabled = true ∧
      (0x083F : Word).toNat + [(0x22 : Byte)].length ≤ 2112 ∧ 0 < (chipStart testChip).busyReads ∧ decodeCall callWriteEnable = some .cmdWriteEnable ∧
      Instr.cmdWriteEnable ≠ .cmdReadRegister .status := by
  refine ⟨⟨by decide, by decide⟩, by decide, by decide, by decide, by decide, by decide, by decide⟩

/-- DetachedRefusesRequests, CommandsNeedTheTransport, CreateAttaches (both clauses). -/
theorem witness_detached :
    detachedBlock.life = .detached ∧ Instr.checkBusy.isRequest = true ∧ Instr.checkBusy ≠ .create ∧
      Instr.cmdWriteEnable.isRequest = false ∧ (blockIn .read []).life = .attached := by decide

/-- AdmissionChecksLengthThenMode, both clauses, at the boundary lengths. -/
theorem witness_admission :
    ¬ lengthsOk (testConfig .pageAsGiven) (.readDataBuffer .fastRead 0 4097) ∧
      lengthsOk (testConfig .pageAsGiven) (.readDataBuffer .fastRead 0 4096) ∧
      ¬ lengthsOk (testConfig .pageAsGiven) (.loadToDataBuffer .single true 0 []) ∧
      lengthsOk (testConfig .pageAsGiven) (.loadToDataBuffer .single true 0 [7]) ∧
      columnAdmits (requestColumn .enableWrite) (some .write) = false ∧
      columnAdmits (requestColumn (.erase128kbBlock 0)) (some .read) = false := by
  simp [lengthsOk, testConfig, Config.maxXfer, pageTotalSize, requestColumn, columnAdmits]

/-- StepRunsTheDecodedInstruction, its clauses on exec's outcome: no refusal among the responses, a refusal, a fault. -/
theorem witness_step_outcomes :
    seen (exec .checkBusy (blockIn .read [.ok [0x00]])) = some (some .read, [.ok (.bool false)], [statusRead]) ∧
      seen (exec .disableWrite (blockIn .read [])) = some (some .read, [.refused .wrongMode], []) ∧
      faulted (exec .cmdWriteEnable detachedBlock) = some .noTransport := by decide

/-- RefusedRequestsChangeNothing, OneResponsePerRequest, FailedCallEndsTheOperation, InstructionFrame,
ModeChangesOnlyByItsOperations, HistoryIsNeverRead: outcomes that go on, refused, accepted, failed, and with each change of
mode. -/
theorem witness_outcomes :
    seen (exec .enableWrite (blockIn .write [])) = some (some .write, [.refused .wrongMode], []) ∧
      seen (exec .checkBusy (blockIn .read [.err .busy])) = some (some .read, [.err .transportBusy], [statusRead]) := by
  decide

theorem witness_outcomes_of_mode_changes :
    seen (exec .create detachedBlock) = some (some .read, [.ok .unit], []) ∧
      seen (exec .release (blockIn .read [])) = some (none, [.ok .unit], []) ∧
      seen (exec .cmdWriteEnable (blockIn .read [.ok []])) = some (some .read, [], [callWriteEnable]) := by decide

/-- PreflightStopsGatedRequests, both clauses. -/
theorem witness_preflight :
    requestGated .readBbmLookupTable = true ∧ Admitted .readBbmLookupTable (blockIn .read [.ok [0x01]]) ∧
      resultOf (callReadRegister .status) (blockIn .read [.err .address]) = .err .address ∧
      resultOf (callReadRegister .status) (blockIn .read [.ok [0x01]]) = .ok [0x01] ∧
      (decodeStatus regLayout.status 0x01).deviceBusy = true :=
  ⟨rfl, ⟨rfl, trivial, rfl⟩, by decide, by decide, by decide⟩

/-- The result statements of the ungated requests: the call fails, and it succeeds. -/
theorem witness_ungated :
    resultOf callDeviceReset (blockIn .read [.err .busy]) = .err .busy ∧
      resultOf callDeviceReset (blockIn .read [.ok []]) = .ok [] ∧
      resultOf callJedecId (blockIn .read [.ok [0xEF, 0xAA, 0x21]]) = .ok [0xEF, 0xAA, 0x21] ∧
      resultOf (callReadRegister .status) (blockIn .read [.ok [0xFE]]) = .ok [0xFE] := by decide

/-- The result statements of the gated requests: a free chip at the preflight, then the command's failure or success. -/
theorem witness_gated :
    resultOf (callReadRegister .status) (blockIn .read [.ok [0x00], .ok []]) = .ok [0x00] ∧
      (decodeStatus regLayout.status 0x00).deviceBusy = false ∧
      resultOf (callPageDataRead 1) (afterCall (callReadRegister .status) (blockIn .read [.ok [0x00], .ok []])) = .ok [] ∧
      resultOf (callPageDataRead 1) (afterCall (callReadRegister .status) (blockIn .read [.ok [0x00], .err .unknown])) =
        .err .unknown ∧
      resultOf (callRead .fastRead 0 2) (afterCall (callReadRegister .status) (blockIn .read [.ok [0x00], .ok [1, 2]])) =
        .ok [1, 2] := by decide

/-- The lengths of BufferReadResult, BufferLoadResult and BufferCommandsMakeTheirCall, at both ends. -/
theorem witness_lengths :
    1 ≤ 1 ∧ 1 ≤ (blockIn .write []).config.maxXfer ∧ 4096 ≤ (blockIn .write []).config.maxXfer ∧
      (blockIn .write []).config.maxXfer = 4096 ∧ 1 ≤ [(7 : Byte)].length := by decide

/-- BlockEraseResult and ProgramExecuteResult: the post-check after an accepted command fails, or finds a failure bit. -/
theorem witness_post_check :
    (blockIn .write []).mode = some .write ∧
      resultOf (callReadRegister .status) { blockIn .write [.ok [0x04]] with mode := some .read } = .ok [0x04] ∧
      (decodeStatus regLayout.status 0x04).eraseFailure = true ∧ (decodeStatus regLayout.status 0x08).eraseFailure = false ∧
      (decodeStatus regLayout.status 0x08).writeFailure = true ∧
      resultOf (callReadRegister .status) { blockIn .write [.err .busy] with mode := some .read } = .err .busy := by decide

/-- ModeEffectFollowsTheMainCommand, both clauses: the command returned `Ok` and the operation failed after it; the command failed. -/
theorem witness_mode_effect :
    modeEffect (testConfig .pageAsGiven) (.erase128kbBlock 0x0040) = some (callBlockErase 0x0040, .read) ∧
      seen (exec (.erase128kbBlock 0x0040) (blockIn .write [.ok [0x02], .ok [], .err .busy])) =
        some (some .read, [.err .transportBusy], [statusRead, callBlockErase 0x0040, statusRead]) ∧
      seen (exec (.erase128kbBlock 0x0040) (blockIn .write [.ok [0x02], .err .unknown])) =
        some (some .write, [.err .transportUnknown], [statusRead, callBlockErase 0x0040]) :=
  by decide

/-- LutSlots: a present slot and an absent one. -/
theorem witness_lut :
    (([0, 5, 3, 0xE8, 0, 0, 0, 0] : List Byte).drop (4 * 0)).take 4 = [0, 5, 3, 0xE8] ∧
      (([0, 5, 3, 0xE8, 0, 0, 0, 0] : List Byte).drop (4 * 1)).take 4 = [0, 0, 0, 0] := by decide

/-- DeviceProgramStageRead (its read clause ends at the buffer's last byte) and DeviceEraseClearsTheBlock: columns in range,
a page inside and one outside the block; DeviceFrame: a command the device answers. -/
theorem witness_device_addresses :
    0 < 2112 ∧ 2111 < 2112 ∧ 0x47 / 64 = (0x0040 : Word).toNat / 64 ∧ 0x3F / 64 ≠ (0x0040 : Word).toNat / 64 ∧
      pageBase 0x0040 + 2112 ≤ 2112 * 0x41 ∧ (decodeConfiguration regLayout.configuration testChip.configuration).buf = true ∧
      (0x0000 : Word).toNat + 2112 ≤ 2112 := by decide

theorem witness_device_frame :
    decodeCall callJedecId = some .cmdJedecId ∧
      (chipAnswer regLayout callJedecId testChip).map (fun r => r.1) = some [0xEF, 0xAA, 0x21] := by decide

end Sys2Proof.Tests
end

section
/-! PROOFS of the family 30_encoding: the calls that decode (O3, O10), and the invariant (O22). -/

namespace Sys2Proof.Machine

/-! The calls that decode. -/

/-- What `ifBuilt` accepts is the call that the instruction encodes to. -/
theorem encode_of_ifBuilt {l : RegLayout} {c e : Call} {i j : Instr} (h : ifBuilt c e i = some j)
    (he : encode l i = .call e) : encode l j = .call c := by
  obtain ⟨rfl, rfl⟩ := ifBuilt_some h
  exact he

theorem encode_of_decodeWriteCall {l : RegLayout} {d : Desc} {p : List Byte} {i : Instr}
    (h : decodeWriteCall d p = some i) : encode l i = .call (.write d p) := by
  unfold decodeWriteCall at h
  split at h
  case h_2 =>
    split at h
    · split at h
      · exact encode_of_ifBuilt h rfl
      · cases h
    · cases h
  case h_12 => cases h
  all_goals exact encode_of_ifBuilt h rfl

theorem encode_of_decodeTransferCall {l : RegLayout} {d : Desc} {n : Nat} {i : Instr}
    (h : decodeTransferCall d n = some i) : encode l i = .call (.transfer d n) := by
  unfold decodeTransferCall at h
  split at h
  case h_2 =>
    dsimp only at h
    split at h
    · exact encode_of_ifBuilt h rfl
    · cases h
  case h_9 => cases h
  all_goals exact encode_of_ifBuilt h rfl

/-- Settles O3: whatever the instruction byte selects is accepted only as the call its rule builds. -/
theorem decodedCallsEncodeBack : Obligations.DecodedCallsEncodeBack := by
  intro l c i h
  cases c with
  | write d p => exact encode_of_decodeWriteCall h
  | transfer d n => exact encode_of_decodeTransferCall h

/-- The 19 instruction bytes (R7). -/
def commandBytes : List Byte :=
  [0xFF, 0x9F, 0x05, 0x01, 0x06, 0x04, 0xD8, 0x02, 0x84, 0x32, 0x34, 0xA5, 0x10, 0x13, 0x0B, 0x3B, 0x6B, 0xBB, 0xEB]

/-- The call has a descriptor that R66, R71 and R97 admit. -/
def LegalCall (c : Call) : Prop :=
  ∃ d : Desc, ((∃ p, c = .write d p) ∨ ∃ n, c = .transfer d n) ∧
    d.instr ∈ commandBytes ∧
    d.instrLines = .one ∧ d.alt = none ∧ (d.dummy = 0 ∨ d.dummy = 4 ∨ d.dummy = 8) ∧
    (∀ a, d.addr = some a → a.size = 1 ∨ a.size = 2) ∧
    (∀ sub v, c = .write d [sub, v] → d.instr = 0x01 → sub = 0xA0 ∨ sub = 0xB0) ∧
    (d.instr = 0x05 → ∃ a, d.addr = some a ∧ a.size = 1 ∧ (a.value = 0xA0 ∨ a.value = 0xB0 ∨ a.value = 0xC0))

/-- A command that is no register access has a legal descriptor, with no address or one of two bytes. -/
theorem legalCall_plain {c : Call} {instr : Byte} {addr : Option AddrPhase} {dummy : Nat} {data : Option Lines}
    (hc : (∃ p, c = .write (descOf instr addr dummy data) p) ∨ ∃ n, c = .transfer (descOf instr addr dummy data) n)
    (hi : instr ∈ commandBytes ∧ instr ≠ 0x01 ∧ instr ≠ 0x05) (hd : dummy = 0 ∨ dummy = 4 ∨ dummy = 8)
    (ha : addr = none ∨ ∃ v l, addr = some (columnPhase v l)) : LegalCall c := by
  obtain ⟨hmem, h1, h5⟩ := hi
  refine ⟨_, hc, hmem, rfl, rfl, hd, fun a h => .inr ?_, fun _ _ _ h => absurd h h1, fun h => absurd h h5⟩
  obtain rfl | ⟨v, l, rfl⟩ := ha
  · cases h
  · cases h; rfl

/-- The payload of instruction 0x01 begins with 0xA0 or 0xB0 (R71). -/
theorem legalCall_writeRegister (r : WritableRegister) (v : Byte) : LegalCall (callWriteRegister r v) := by
  refine ⟨_, .inl ⟨_, rfl⟩, by simp [descOf, commandBytes], rfl, rfl, .inl rfl, (fun _ h => nomatch h), fun sub w h _ => ?_,
    fun h => absurd h (by decide)⟩
  cases r with
  | protection => cases h; exact .inl rfl
  | configuration => cases h; exact .inr rfl

/-- Instruction 0x05 has a one-byte address, one of the three sub-addresses (R70). -/
theorem legalCall_readRegister (r : ChipRegister) : LegalCall (callReadRegister r) := by
  refine ⟨_, .inr ⟨_, rfl⟩, by simp [descOf, commandBytes], rfl, rfl, .inl rfl, fun a h => .inl ?_,
    (fun _ _ h => nomatch h), fun _ => ⟨_, rfl, rfl, ?_⟩⟩
  · cases h; rfl
  · cases r with
    | protection => exact .inl rfl
    | configuration => exact .inr (.inl rfl)
    | status => exact .inr (.inr rfl)

/-- An instruction that encodes to a transport call encodes to a legal one. -/
theorem legalCall_of_encode {l : RegLayout} {i : Instr} {c : Call} (h : encode l i = .call c) : LegalCall c := by
  cases i with
  | cmdDeviceReset => cases h; exact legalCall_plain (.inl ⟨_, rfl⟩) (by decide) (by decide) (.inl rfl)
  | cmdJedecId => cases h; exact legalCall_plain (.inr ⟨_, rfl⟩) (by decide) (by decide) (.inl rfl)
  | cmdReadRegister r => cases h; exact legalCall_readRegister r
  | cmdWriteRegister r v => cases h; exact legalCall_writeRegister r v
  | cmdWriteEnable => cases h; exact legalCall_plain (.inl ⟨_, rfl⟩) (by decide) (by decide) (.inl rfl)
  | cmdWriteDisable => cases h; exact legalCall_plain (.inl ⟨_, rfl⟩) (by decide) (by decide) (.inl rfl)
  | cmdReadBbmLut => cases h; exact legalCall_plain (.inr ⟨_, rfl⟩) (by decide) (by decide) (.inl rfl)
  | cmdBlockErase _ | cmdPageDataRead _ | cmdProgramExecute _ | cmdLoadClearSingle _ _ | cmdLoadRandomSingle _ _
  | cmdLoadClearQuad _ _ | cmdLoadRandomQuad _ _ =>
    cases h; exact legalCall_plain (.inl ⟨_, rfl⟩) (by decide) (by decide) (.inr ⟨_, _, rfl⟩)
  | cmdFastRead _ _ | cmdFastReadDualOutput _ _ | cmdFastReadQuadOutput _ _ | cmdFastReadDualIO _ _
  | cmdFastReadQuadIO _ _ =>
    cases h; exact legalCall_plain (.inr ⟨_, rfl⟩) (by decide) (by decide) (.inr ⟨_, _, rfl⟩)
  | _ => cases h

/-- Settles O10: a call that decodes is the encoding of its command, and every command's encoding is legal. -/
theorem builtDescriptorsAreLegal : Obligations.BuiltDescriptorsAreLegal :=
  fun c i h => legalCall_of_encode (decodedCallsEncodeBack regLayout c i h)

/-! The invariant without its last clause: what every move of the block keeps, one that refuses a request too. -/

/-- The clauses of `State.Inv` but `safe`. -/
structure State.Sound (s : State) : Prop where
  modeHeld : s.mode = none ↔ s.life = .detached
  waitAttached : s.activity = .waiting → s.life = .attached
  counted : s.calls = s.transcript.length
  legal : ∀ e ∈ s.transcript, EventLegal s.config e
  envWf : EnvWf s.env
  layoutDistinct : s.config.regLayout.Distinct

theorem State.inv_iff {s : State} : s.Inv ↔ s.Sound ∧ s.Safe :=
  ⟨fun ⟨hm, hw, hc, hl, he, hd, hs⟩ => ⟨⟨hm, hw, hc, hl, he, hd⟩, hs⟩,
    fun ⟨⟨hm, hw, hc, hl, he, hd⟩, hs⟩ => ⟨hm, hw, hc, hl, he, hd, hs⟩⟩

/-- The reference device stays canonical through a call; a script has nothing to keep. -/
theorem envAnswer_wf {l : RegLayout} {k : Nat} {c : Call} {e : Env} (h : EnvWf e) : EnvWf (envAnswer l k c e).2 := by
  unfold envAnswer
  split
  · trivial
  · trivial
  · split
    · exact chipAnswer_wf h ‹_›
    · trivial

/-! What keeps it. -/

theorem sound_transport {c : Call} {s : State} (hc : CallBuilt s.config c) (h : s.Sound) : (transport c s).2.Sound where
  modeHeld := h.modeHeld
  waitAttached := h.waitAttached
  counted := by simp [h.counted]
  legal e he := by
    rw [transport_transcript, List.mem_append, List.mem_singleton] at he
    obtain he | rfl := he
    · exact h.legal e he
    · exact ⟨hc, transport_fits c s⟩
  envWf := envAnswer_wf h.envWf
  layoutDistinct := h.layoutDistinct

theorem sound_respond (r : Response) {s : State} (h : s.Sound) : (respond r s).Sound :=
  { h with }

theorem sound_setMode (m : Mode) {s : State} (ha : s.life = .attached) (h : s.Sound) : (setMode m s).Sound :=
  { h with modeHeld := by simp [ha] }

theorem sound_endWait {s : State} (h : s.Sound) : (endWait s).Sound :=
  { h with waitAttached := by simp }

/-- The ports' contents are in no clause. -/
theorem sound_ports (rs : List (List Byte)) (f : Option Call) {s : State} (h : s.Sound) :
    ({ s with requests := rs, framed := f }).Sound :=
  { h with }

theorem sound_pollOnce {s : State} (ha : s.life = .attached) (h : s.Sound) : (pollOnce s).Sound := by
  have hcall := sound_transport (built_readRegister s.config .status) h
  obtain ⟨r, t, ht, hp, -⟩ | ⟨b, t, ht, -, hp⟩ := pollOnce_cases s
  · obtain ⟨-, rfl⟩ := transport_eq ht
    rw [hp]
    exact sound_endWait hcall
  · obtain ⟨-, rfl⟩ := transport_eq ht
    rw [hp]
    exact { hcall with waitAttached := fun _ => ha }

/-! What an instruction can do. -/

/-- Before creation every request but `create` is refused, with nothing else done (R23, R144). -/
theorem exec_detached {i : Instr} {s : State} (h : s.life = .detached) (hr : i.isRequest = true) (hc : i ≠ .create) :
    exec i s = .next (refuse .notAttached s) := by
  have hserve (col ok f) : Host.Outcome.next (φ := Fault) (ρ := Refusal) (serve col ok f s) =
      .next (refuse .notAttached s) :=
    congrArg _ (serve_refused (admission_detached h))
  cases i with
  | create => contradiction
  | waitWhileBusy => simp [exec, execWaitWhileBusy, admission_detached h]
  | release | resetDevice | getJedecId | checkBusy | readStatusRegister | readProtectionRegister
  | readConfigurationRegister | writeProtectionRegister _ | writeConfigurationRegister _ | setWriteProtection _
  | setContinuousReadMode _ | readMemoryToDataBuffer _ | readDataBuffer _ _ _ | readBbmLookupTable | enableWrite
  | disableWrite | erase128kbBlock _ | loadToDataBuffer _ _ _ _ | writeDataBufferToMemory _ => exact hserve _ _ _
  | _ => cases hr

/-- What an instruction that goes on can have done; the requests without a rule of their own are left to
`request_served` and `request_keeps`. -/
inductive Move (i : Instr) (s : State) : State → Prop
  | refused (r : RefusalReason) : Move i s (refuse r s)
  | created (h : s.life = .detached) :
    Move i s (respond (.ok .unit) { s with life := .attached, mode := some .read })
  | released : Move i s (respond (.ok .unit) { s with life := .detached, mode := none })
  | polled (h : s.life = .attached) : Move i s (pollOnce s)
  | called (c : Call) (h : CallBuilt s.config c) : Move i s (transport c s).2
  | served (t : State) (h : s.life = .attached) (hr : i.isRequest = true) (h1 : i ≠ .create) (h2 : i ≠ .release)
    (h3 : i ≠ .waitWhileBusy) (he : exec i s = .next t) : Move i s t

theorem move_create {s t : State} (he : exec .create s = .next t) : Move .create s t := by
  cases hl : s.life with
  | detached =>
    have : exec .create s = .next (respond (.ok .unit) { s with life := .attached, mode := some .read }) := by
      simp [exec, execCreate, hl]
    rw [← next_inj (this.symm.trans he)]
    exact .created hl
  | attached =>
    have : exec .create s = .next (refuse .alreadyAttached s) := by simp [exec, execCreate, hl]
    rw [← next_inj (this.symm.trans he)]
    exact .refused _

theorem move_release {s t : State} (he : exec .release s = .next t) : Move .release s t := by
  rw [← next_inj he]
  unfold serve
  split
  · exact .refused _
  · exact .released

theorem move_wait {s t : State} (hl : s.life = .attached) (he : exec .waitWhileBusy s = .next t) :
    Move .waitWhileBusy s t := by
  have : exec .waitWhileBusy s = .next (pollOnce s) := by
    simp [exec, execWaitWhileBusy, admission_none (col := .either) hl rfl]
  rw [← next_inj (this.symm.trans he)]
  exact .polled hl

theorem exec_move {i : Instr} {s t : State} (he : exec i s = .next t) : Move i s t := by
  cases hr : i.isRequest with
  | false =>
    obtain ⟨-, ⟨c, hc, rfl⟩ | rfl⟩ := command_cases hr he
    · exact .called c hc
    · exact .refused _
  | true =>
    by_cases h1 : i = .create
    · subst h1; exact move_create he
    cases hl : s.life with
    | detached =>
      rw [← next_inj ((exec_detached hl hr h1).symm.trans he)]
      exact .refused _
    | attached =>
      by_cases h2 : i = .release
      · subst h2; exact move_release he
      by_cases h3 : i = .waitWhileBusy
      · subst h3; exact move_wait hl he
      exact .served t hl hr h1 h2 h3 he

/-! The instructions and the step keep it. -/

/-- What holds all along a request of an attached block: `request_keeps` is applied to it. -/
def SoundServing (cfg : Config) (t : State) : Prop := t.Sound ∧ t.life = .attached ∧ t.config = cfg

theorem sound_served {i : Instr} {s t : State} (h : s.Sound) (hl : s.life = .attached) (hr : i.isRequest = true)
    (h1 : i ≠ .create) (h2 : i ≠ .release) (h3 : i ≠ .waitWhileBusy) (he : exec i s = .next t) : t.Sound := by
  have hkeeps : SoundServing s.config t :=
    request_keeps (P := SoundServing s.config) ⟨h, hl, rfl⟩
      (fun r _ ⟨hs, ha, hcfg⟩ => ⟨sound_respond r hs, ha, hcfg⟩)
      (fun c hc _ ⟨hs, ha, hcfg⟩ => ⟨sound_transport (hcfg ▸ hc) hs, ha, hcfg⟩)
      (fun _ m _ _ ⟨hs, ha, hcfg⟩ => ⟨sound_setMode m ha hs, ha, hcfg⟩) hr h1 h2 h3 he
  exact hkeeps.1

/-- An instruction run while no wait is in progress, so that `release` leaves none behind, keeps every clause but `safe`. -/
theorem exec_sound {i : Instr} {s t : State} (h : s.Sound) (hidle : s.activity = .idle) (he : exec i s = .next t) :
    t.Sound := by
  cases exec_move he with
  | refused r => exact sound_respond _ h
  | created hl => exact { h with modeHeld := by simp, waitAttached := fun _ => rfl }
  | released => exact { h with modeHeld := by simp, waitAttached := by simp [hidle] }
  | polled hl => exact sound_pollOnce hl h
  | called c hc => exact sound_transport hc h
  | served t hl hr h1 h2 h3 he => exact sound_served h hl hr h1 h2 h3 he

/-- What `fetch` answers in a state: it polls only while a wait is in progress, and it runs an instruction only while none
is, in the state without its encoding. -/
def FetchedFrom (s : State) : Fetched → Prop
  | .poll => s.activity = .waiting
  | .run _ s' => s.activity = .idle ∧ ∃ rs f, s' = { s with requests := rs, framed := f }
  | .refusedFrame _ s' => ∃ rs f, s' = { s with requests := rs, framed := f }
  | .idle | .neverBuilt => True

theorem fetchRequest_from {s : State} (h : s.activity = .idle) : FetchedFrom s (fetchRequest s) := by
  unfold fetchRequest
  split
  · trivial
  · split
    · exact ⟨h, _, _, rfl⟩
    · exact ⟨_, _, rfl⟩
    · trivial

theorem fetch_from (s : State) : FetchedFrom s (fetch s) := by
  unfold fetch
  split
  · assumption
  · split
    · split
      · exact ⟨‹_›, _, _, rfl⟩
      · trivial
    · exact fetchRequest_from ‹_›

/-- A move of the block that goes on: nothing, an iteration of the wait, or an encoding is taken from its port and its
instruction runs or it is refused. -/
theorem blockStep_cases {s t : State} (hb : blockStep s = .next t) :
    t = s ∨ (s.activity = .waiting ∧ t = pollOnce s) ∨
      ∃ rs f, (∃ i, s.activity = .idle ∧ exec i { s with requests := rs, framed := f } = .next t) ∨
        ∃ r, t = refuse r { s with requests := rs, framed := f } := by
  have hfetch := fetch_from s
  unfold blockStep at hb
  cases hf : fetch s <;> rw [hf] at hb hfetch
  case idle => exact .inl (next_inj hb).symm
  case poll => exact .inr (.inl ⟨hfetch, (next_inj hb).symm⟩)
  case run i _ =>
    obtain ⟨hidle, rs, f, rfl⟩ := hfetch
    exact .inr (.inr ⟨rs, f, .inl ⟨i, hidle, hb⟩⟩)
  case refusedFrame r _ =>
    obtain ⟨rs, f, rfl⟩ := hfetch
    exact .inr (.inr ⟨rs, f, .inr ⟨r, (next_inj hb).symm⟩⟩)
  case neverBuilt => cases hb

/-- A move of the block keeps every clause of the invariant but `safe`. -/
theorem blockStep_sound {s t : State} (h : s.Sound) (hb : blockStep s = .next t) : t.Sound := by
  obtain rfl | ⟨hwait, rfl⟩ | ⟨rs, f, ⟨i, hidle, he⟩ | ⟨r, rfl⟩⟩ := blockStep_cases hb
  · exact h
  · exact sound_pollOnce (h.waitAttached hwait) h
  · exact exec_sound (sound_ports rs f h) hidle he
  · exact sound_respond _ (sound_ports rs f h)

/-! A move answers at most once, so a step that goes on has added no refusal. -/

/-- Between the two states at most one response was returned. -/
def AnswersAtMostOnce (s t : State) : Prop := t.responses = s.responses ∨ ∃ r, t.responses = s.responses ++ [r]

theorem pollOnce_answersAtMostOnce (s : State) : AnswersAtMostOnce s (pollOnce s) := by
  obtain ⟨r, t, ht, hp, -⟩ | ⟨b, t, ht, -, hp⟩ := pollOnce_cases s
  · obtain ⟨-, rfl⟩ := transport_eq ht
    exact .inr ⟨.ok .unit, by simp [hp]⟩
  · obtain ⟨-, rfl⟩ := transport_eq ht
    exact .inl (by simp [hp])

theorem Served.answersAtMostOnce {s t : State} (h : Served s t) : AnswersAtMostOnce s t := by
  obtain ⟨r, rfl⟩ | ⟨u, _, r, hran, rfl, -⟩ := h
  · exact .inr ⟨_, rfl⟩
  · exact .inr ⟨r, by rw [respond_responses, hran.responses]⟩

theorem exec_answersAtMostOnce {i : Instr} {s t : State} (he : exec i s = .next t) : AnswersAtMostOnce s t := by
  cases exec_move he with
  | refused r => exact .inr ⟨_, rfl⟩
  | created hl => exact .inr ⟨_, rfl⟩
  | released => exact .inr ⟨_, rfl⟩
  | polled hl => exact pollOnce_answersAtMostOnce s
  | called c hc => exact .inl rfl
  | served t hl hr h1 h2 h3 he =>
    obtain ⟨u, hu, hserved⟩ := request_served s hr h1 h2 h3
    exact next_inj (hu.symm.trans he) ▸ hserved.answersAtMostOnce

theorem blockStep_answersAtMostOnce {s t : State} (hb : blockStep s = .next t) : AnswersAtMostOnce s t := by
  obtain rfl | ⟨-, rfl⟩ | ⟨rs, f, ⟨i, -, he⟩ | ⟨r, rfl⟩⟩ := blockStep_cases hb
  · exact .inl rfl
  · exact pollOnce_answersAtMostOnce s
  · have hexec := exec_answersAtMostOnce he
    exact hexec
  · exact .inr ⟨_, rfl⟩

theorem safe_of_no_refusal {s t : State} (h : s.Safe) (ha : AnswersAtMostOnce s t)
    (hn : ∀ q, t.responses ≠ s.responses ++ [.refused q]) : t.Safe := by
  obtain hsame | ⟨r, hadd⟩ := ha
  · exact fun x hx => h x (hsame ▸ hx)
  · intro x hx
    rw [hadd, List.mem_append, List.mem_singleton] at hx
    obtain hx | rfl := hx
    · exact h x hx
    · cases x with
      | ok v => rfl
      | err e => rfl
      | refused q => exact absurd hadd (hn q)

/-- Settles O22: the block's move keeps every clause but `safe`, and a step that goes on refused nothing. -/
theorem stepKeepsInvariant : Obligations.StepKeepsInvariant := by
  intro s t hinv hstep
  obtain ⟨hsound, hsafe⟩ := State.inv_iff.mp hinv
  obtain ⟨hblock, hnone⟩ := unlessRefused_next hstep
  exact State.inv_iff.mpr
    ⟨blockStep_sound hsound hblock, safe_of_no_refusal hsafe (blockStep_answersAtMostOnce hblock) hnone⟩

end Sys2Proof.Machine
end

section
/-! PROOFS of the family 40_register_model: the ECC table (O11), and the register accesses (O32, O34, O35). -/

namespace Sys2Proof.Machine

/-! The ECC table. -/

/-- `eccBits` is the inverse of `eccDecode`; `eccDecode_bits` is the other direction. -/
@[simp] theorem eccBits_decode (ecc0 ecc1 : Bool) : eccBits (eccDecode ecc0 ecc1) = (ecc0, ecc1) := by
  cases ecc0 <;> cases ecc1 <;> rfl

theorem eccDecode_injective {a b c d : Bool} (h : eccDecode a b = eccDecode c d) : a = c ∧ b = d := by
  have hbits := congrArg eccBits h
  rwa [eccBits_decode, eccBits_decode, Prod.mk.injEq] at hbits

/-- Settles O11: the four rows are the table's, and `eccBits` reads it backwards. -/
theorem eccTruthTable : Obligations.EccTruthTable :=
  ⟨rfl, rfl, rfl, rfl, fun _ _ _ _ => eccDecode_injective, fun e => ⟨_, _, eccDecode_bits e⟩⟩

/-! The one register access an operation ends with: `o` is the outcome once nothing else is left to do. -/

theorem afterCall_readReg {r : ChipRegister} {s : State} {o : Host.Outcome State Fault Refusal} {v : Byte → Value}
    (ho : o = .next (finish (andThen (readReg r s) fun b t => .done (v b) t))) :
    AfterCall (callReadRegister r) s o fun bs t =>
      ∃ b, bs = [b] ∧ o = .next { t with responses := t.responses ++ [.ok (v b)] } := by
  refine ⟨fun u t hu => ?_, fun bs t hbs => ?_⟩
  · rw [ho, readReg_err hu]; rfl
  · obtain ⟨b, rfl⟩ := readCall_one_byte hbs
    refine ⟨b, rfl, ?_⟩
    rw [ho, readReg_ok hbs]; rfl

theorem afterCall_writeReg {r : WritableRegister} {v : Byte} {s : State} {o : Host.Outcome State Fault Refusal}
    (ho : o = .next (finish (andThen (writeReg r v s) fun _ t => .done .unit t))) :
    AfterCall (callWriteRegister r v) s o fun _ t => o = .next { t with responses := t.responses ++ [.ok .unit] } := by
  refine ⟨fun u t hu => ?_, fun bs t hbs => ?_⟩
  · rw [ho, writeReg_err hu]; rfl
  · rw [ho, writeReg_ok hbs]; rfl

/-- Every register access is accepted in either mode and has no operand to check. -/
theorem admission_either {s : State} (h : s.life = .attached) : admission .either true s = none :=
  admission_none h rfl

/-- Settles O32: an admitted query goes straight to its one status read. -/
theorem statusQueries : Obligations.StatusQueries := by
  intro s hatt
  have hserve (f : State → Flow Value) :
      Host.Outcome.next (φ := Fault) (ρ := Refusal) (serve .either true f s) = .next (finish (f s)) :=
    congrArg _ (serve_admitted (admission_either hatt))
  exact ⟨afterCall_readReg (hserve _), afterCall_readReg (hserve _)⟩

/-- Settles O34: what the preflight leaves to do is one register read. -/
theorem registerReads : Obligations.RegisterReads := by
  intro s hatt
  have hadm := admission_either hatt
  exact ⟨afterPreflight_intro hadm rfl fun _ => afterCall_readReg,
    afterPreflight_intro hadm rfl fun _ => afterCall_readReg⟩

/-- Settles O35: what the preflight leaves to do is one register write, of the byte encoded from the operand. -/
theorem registerWrites : Obligations.RegisterWrites := by
  intro s p c hatt
  have hadm := admission_either hatt
  exact ⟨afterPreflight_intro hadm rfl fun _ => afterCall_writeReg,
    afterPreflight_intro hadm rfl fun _ => afterCall_writeReg,
    afterPreflight_intro hadm rfl fun _ => afterCall_writeReg⟩

end Sys2Proof.Machine
end

section
/-! PROOFS of the family 41_mode_state_machine: the preflight (O28), the mode register (O41, O45), and the wait (O33,
O52). -/

namespace Sys2Proof.Machine

/-! The preflight. -/

/-- A gated request is served with its own mode column, and its operand check is that of its length. -/
theorem exec_gated {i : Instr} (s : State) (hg : requestGated i = true) :
    ∃ ok f, (lengthsOk s.config i → ok = true) ∧ exec i s = .next (serveGated (requestColumn i) ok f s) := by
  cases i with
  | readDataBuffer _ _ _ | loadToDataBuffer _ _ _ _ => exact ⟨_, _, (lengthOk_iff _ _).mpr, rfl⟩
  | readProtectionRegister | readConfigurationRegister | writeProtectionRegister _ | writeConfigurationRegister _
  | setWriteProtection _ | setContinuousReadMode _ | readMemoryToDataBuffer _ | readBbmLookupTable | enableWrite
  | disableWrite | erase128kbBlock _ | writeDataBufferToMemory _ => exact ⟨true, _, fun _ => rfl, rfl⟩
  | _ => cases hg

/-- Settles O28: the two ends of the preflight of the gated request that is served. -/
theorem preflightStopsGatedRequests : Obligations.PreflightStopsGatedRequests := by
  intro i s s1 hgated ⟨hatt, hlen, hcol⟩
  obtain ⟨ok, f, hok, hexec⟩ := exec_gated s hgated
  obtain rfl := hok hlen
  have hadm := admission_none hatt hcol
  refine ⟨fun u hu => ?_, fun b hb hbusy => ?_⟩
  · rw [hexec, serveGated_err hadm hu]; rfl
  · rw [hexec, serveGated_busy hadm hb hbusy]; rfl

/-! The mode transitions. -/

/-- The one command of a mode transition: `o` is the outcome once nothing else is left to do. -/
theorem afterCall_modeWrite {c : Call} {m : Mode} {s : State} {o : Host.Outcome State Fault Refusal}
    (ho : o = .next (finish (andThen (issueWrite c s) fun _ t => .done .unit (setMode m t)))) :
    AfterCall c s o fun _ t => o = .next { t with mode := some m, responses := t.responses ++ [.ok .unit] } := by
  refine ⟨fun u t hu => ?_, fun bs t hbs => ?_⟩
  · rw [ho, issueWrite_err hu]; rfl
  · rw [ho, issueWrite_ok hbs]; rfl

/-- A gated request in a mode outside its column is refused (R116). -/
theorem serveGated_wrongMode {col : ModeColumn} {f : State → Flow Value} {s : State} (h : s.life = .attached)
    (hm : columnAdmits col s.mode = false) :
    serveGated col true f s = { s with responses := s.responses ++ [.refused .wrongMode] } :=
  serveGated_refused (admission_wrongMode h hm)

/-- Settles O41: in its own mode a transition is left with its one command by the preflight; in the other it is not
admitted. -/
theorem modeTransitions : Obligations.ModeTransitions := by
  intro s hatt
  refine ⟨fun hread => ?_, fun hwrite => ?_⟩
  · have henable : admission .readOnly true s = none := admission_none hatt (by simp [columnAdmits, hread])
    have hdisable : columnAdmits .writeOnly s.mode = false := by simp [columnAdmits, hread]
    exact ⟨afterPreflight_intro henable rfl fun _ => afterCall_modeWrite,
      congrArg _ (serveGated_wrongMode hatt hdisable)⟩
  · have hdisable : admission .writeOnly true s = none := admission_none hatt (by simp [columnAdmits, hwrite])
    have henable : columnAdmits .readOnly s.mode = false := by simp [columnAdmits, hwrite]
    exact ⟨afterPreflight_intro hdisable rfl fun _ => afterCall_modeWrite,
      congrArg _ (serveGated_wrongMode hatt henable)⟩

/-! The mode effect: what holds at every point of an operation between two of its statements. -/

/-- From `s` to `t` the mode became `m` if the call `c` returned `Ok` on the way, and otherwise stayed. -/
def ModeFollows (c : Call) (m : Mode) (s t : State) : Prop :=
  ∃ events, t.transcript = s.transcript ++ events ∧
    ((∃ bs, { call := c, result := .ok bs } ∈ events) → t.mode = some m) ∧
    ((∀ bs, { call := c, result := .ok bs } ∉ events) → t.mode = s.mode)

section
variable {c : Call} {m : Mode} {s : State}

theorem modeFollows_refl : ModeFollows c m s s :=
  ⟨[], (List.append_nil _).symm, (fun ⟨_, h⟩ => nomatch h), fun _ => rfl⟩

/-- A call that is not the main command, or failed, has no effect on the mode. -/
theorem modeFollows_call_other {d : Call} {t u : State} {r : CallResult} (h : ModeFollows c m s t)
    (hd : transport d t = (r, u)) (hne : ∀ bs, ({ call := c, result := .ok bs } : Event) ≠ ⟨d, r⟩) :
    ModeFollows c m s u := by
  obtain ⟨events, htrans, hin, hout⟩ := h
  obtain ⟨rfl, rfl⟩ := transport_eq hd
  refine ⟨events ++ [⟨d, (transport d t).1⟩], by simp [htrans], fun ⟨bs, hbs⟩ => hin ⟨bs, ?_⟩,
    fun h => hout fun bs hbs => h bs (List.mem_append_left _ hbs)⟩
  exact (List.mem_append.mp hbs).resolve_right fun hmem => hne bs (List.mem_singleton.mp hmem)

/-- The main command returned `Ok` and its effect is applied. -/
theorem modeFollows_call_main {t u : State} {bs : List Byte} (h : ModeFollows c m s t)
    (hc : transport c t = (.ok bs, u)) : ModeFollows c m s (setMode m u) := by
  obtain ⟨events, htrans, -, -⟩ := h
  refine ⟨events ++ [⟨c, .ok bs⟩], by simp [(Ran.call hc).transcript, htrans], fun _ => rfl, fun h => ?_⟩
  exact absurd (List.mem_append_right _ (List.mem_singleton.mpr rfl)) (h bs)

theorem callKeeps_modeFollows {d : Call} (hne : c ≠ d) : CallKeeps (ModeFollows c m s) d :=
  fun _ ht => modeFollows_call_other ht rfl fun _ he => hne (congrArg Event.call he)

/-- The main command and what comes after it, the effect applied first. -/
theorem keeps_mainCommand {g : State → Flow Value}
    (hg : ∀ u, ModeFollows c m s (setMode m u) → ModeFollows c m s (flowState (g u))) :
    Keeps (ModeFollows c m s) fun t => andThen (issueWrite c t) fun _ u => g u := by
  intro t ht
  dsimp only
  cases hc : transport c t with
  | mk r u =>
    cases r with
    | err e =>
      rw [issueWrite_err hc]
      exact modeFollows_call_other ht hc fun _ he => nomatch congrArg Event.result he
    | ok bs =>
      rw [issueWrite_ok hc]
      exact hg u (modeFollows_call_main ht hc)

/-- The post-check is no main command, so it keeps what holds of the mode. -/
theorem keeps_postCheck_modeFollows {failed : Byte → Bool} (hne : c ≠ callReadRegister .status) :
    Keeps (α := Value) (ModeFollows c m s) fun t => andThen (postCheck failed t) fun _ u => .done .unit u :=
  keeps_andThen (keeps_postCheck (callKeeps_modeFollows hne)) fun _ => keeps_done _ Value.unit

/-- A gated request whose pseudocode begins with its main command. -/
theorem serveGated_modeFollows {col : ModeColumn} {ok : Bool} {g : State → Flow Value}
    (hne : c ≠ callReadRegister .status)
    (hg : ∀ u, ModeFollows c m s (setMode m u) → ModeFollows c m s (flowState (g u))) :
    ModeFollows c m s (serveGated col ok (fun t => andThen (issueWrite c t) fun _ u => g u) s) :=
  serveGated_keeps (fun _ _ h => h) (callKeeps_modeFollows hne) (keeps_mainCommand hg) modeFollows_refl

end

/-- A main command with a mode effect is a write, the status read a transfer. -/
theorem modeEffect_not_statusRead {cfg : Config} {i : Instr} {c : Call} {m : Mode} (h : modeEffect cfg i = some (c, m)) :
    c ≠ callReadRegister .status := by
  cases i with
  | enableWrite | disableWrite | erase128kbBlock _ | writeDataBufferToMemory _ => cases h; nofun
  | _ => cases h

/-- Settles O45: the transitions end once the effect is applied, and the post-check of the other two leaves it. -/
theorem modeEffectFollowsTheMainCommand : Obligations.ModeEffectFollowsTheMainCommand := by
  intro i s t c m hm he
  have hne := modeEffect_not_statusRead hm
  cases i with
  | enableWrite | disableWrite =>
    cases hm
    rw [← next_inj he]
    exact serveGated_modeFollows hne fun _ h => h
  | erase128kbBlock _ | writeDataBufferToMemory _ =>
    cases hm
    rw [← next_inj he]
    exact serveGated_modeFollows hne fun u h => keeps_postCheck_modeFollows hne (setMode .read u) h
  | _ => cases hm

/-! The wait. -/

theorem pollOnce_err {s t : State} {u : TransportError} (h : transport (callReadRegister .status) s = (.err u, t)) :
    pollOnce s = endWait t := by
  simp [pollOnce, h]

theorem pollOnce_free {s t : State} {b : Byte} (h : transport (callReadRegister .status) s = (.ok [b], t))
    (hb : isBusy s.config.regLayout.status b = false) : pollOnce s = endWait t := by
  simp [pollOnce, h, hb]

theorem pollOnce_busy {s t : State} {b : Byte} (h : transport (callReadRegister .status) s = (.ok [b], t))
    (hb : isBusy s.config.regLayout.status b = true) : pollOnce s = { t with activity := .waiting } := by
  simp [pollOnce, h, hb]

theorem exec_waitWhileBusy {s : State} (h : s.life = .attached) : exec .waitWhileBusy s = .next (pollOnce s) := by
  simp [exec, execWaitWhileBusy, admission_either h]

/-- Settles O33: the request and the later step are the same iteration. -/
theorem waitIteration : Obligations.WaitIteration := by
  intro s t o hwait
  have ho : o = .next (pollOnce s) := by
    obtain ⟨hatt, rfl⟩ | ⟨hact, rfl⟩ := hwait
    · exact exec_waitWhileBusy hatt
    · exact step_waiting hact
  exact ⟨fun _ hu => ho.trans (congrArg _ (pollOnce_err hu)),
    fun _ hr hfree => ho.trans (congrArg _ (pollOnce_free hr hfree)),
    fun _ hr hbusy => ho.trans (congrArg _ (pollOnce_busy hr hbusy))⟩

/-- An iteration that answers has read a free chip, or failed to read. -/
theorem pollOnce_answered {s : State} (h : (pollOnce s).responses = s.responses ++ [.ok .unit]) :
    ∃ e, (pollOnce s).transcript = s.transcript ++ [e] ∧ e.call = callReadRegister .status ∧
      ((∃ u, e.result = .err u) ∨ ∃ b, e.result = .ok [b] ∧ isBusy s.config.regLayout.status b = false) := by
  obtain ⟨r, t, ht, hp, hr⟩ | ⟨b, t, ht, -, hp⟩ := pollOnce_cases s
  · exact ⟨⟨_, r⟩, by rw [hp]; exact (Ran.call ht).transcript, rfl, hr⟩
  · have hsilent : (pollOnce s).responses = s.responses := by rw [hp]; exact (Ran.call ht).responses
    simp [hsilent] at h

/-- Settles O52: a refused wait does not answer `Ok`, and the others are an iteration that answers. -/
theorem waitPostcondition : Obligations.WaitPostcondition := by
  intro s t hwait hresp
  have ht : t = pollOnce s := by
    obtain he | ⟨hact, hstep⟩ := hwait
    · cases hl : s.life with
      | attached => exact (next_inj ((exec_waitWhileBusy hl).symm.trans he)).symm
      | detached =>
        obtain rfl := next_inj ((exec_detached (i := .waitWhileBusy) hl rfl nofun).symm.trans he)
        simp at hresp
    · exact (next_inj ((step_waiting hact).symm.trans hstep)).symm
  subst ht
  exact pollOnce_answered hresp

end Sys2Proof.Machine
end

section
/-! PROOFS of the family 42_mode_independent_ops: release (O30), the ungated commands (O31), and the page data read
(O37). -/

namespace Sys2Proof.Machine

/-! The one call an operation ends with: `o` is the outcome once nothing else is left to do. -/

/-- The bytes returned are as many as the call asks for. -/
theorem afterCall_issue {c : Call} {s : State} {o : Host.Outcome State Fault Refusal} {v : List Byte → Value}
    (ho : o = .next (finish (andThen (issue c s) fun bs t => .done (v bs) t))) :
    AfterCall c s o fun bs t =>
      ResultFits c (.ok bs) ∧ o = .next { t with responses := t.responses ++ [.ok (v bs)] } := by
  refine ⟨fun u t hu => ?_, fun bs t hbs => ⟨fits_of_eq hbs, ?_⟩⟩
  · rw [ho, issue_err hu]; rfl
  · rw [ho, issue_ok hbs]; rfl

theorem afterCall_issueWrite {c : Call} {s : State} {o : Host.Outcome State Fault Refusal}
    (ho : o = .next (finish (andThen (issueWrite c s) fun _ t => .done .unit t))) :
    AfterCall c s o fun _ t => o = .next { t with responses := t.responses ++ [.ok .unit] } := by
  refine ⟨fun u t hu => ?_, fun bs t hbs => ?_⟩
  · rw [ho, issueWrite_err hu]; rfl
  · rw [ho, issueWrite_ok hbs]; rfl

/-- An ungated request accepted in either mode goes straight to its pseudocode. -/
theorem serve_either {f : State → Flow Value} {s : State} (h : s.life = .attached) :
    serve .either true f s = finish (f s) :=
  serve_admitted (admission_either h)

/-- Settles O30: `release` is admitted in either mode and has nothing but its state to write. -/
theorem releaseDetaches : Obligations.ReleaseDetaches :=
  fun _ hatt => congrArg _ (serve_either hatt)

/-- Settles O31: admitted, both go straight to their one call, and the identification read returns three bytes. -/
theorem ungatedCommandsRunAtOnce : Obligations.UngatedCommandsRunAtOnce := by
  intro s hatt
  obtain ⟨hfail, hok⟩ :=
    afterCall_issue (o := exec .getJedecId s) (c := callJedecId) (v := .bytes) (congrArg _ (serve_either hatt))
  refine ⟨afterCall_issueWrite (congrArg _ (serve_either hatt)), hfail, fun bs t hbs => ?_⟩
  obtain ⟨hthree, hexec⟩ := hok bs t hbs
  obtain ⟨b0, b1, b2, rfl⟩ := List.length_eq_three.mp hthree
  exact ⟨b0, b1, b2, rfl, hexec⟩

/-- Settles O37: what the preflight leaves to do is the one page data read. -/
theorem pageStageResult : Obligations.PageStageResult :=
  fun _ _ hatt => afterPreflight_intro (admission_either hatt) rfl fun _ => afterCall_issueWrite

end Sys2Proof.Machine
end

section
/-! PROOFS of the family 43_write_mode_ops: block erase (O42) and program execute (O44). -/

namespace Sys2Proof.Machine

/-- The post-check an operation ends with: `o` is the outcome once nothing else is left to do. The status read leaves the
mode. -/
theorem afterCall_postCheck {failed : Byte → Bool} {s : State} {o : Host.Outcome State Fault Refusal}
    (ho : o = .next (finish (andThen (postCheck failed s) fun _ t => .done .unit t))) :
    AfterCall (callReadRegister .status) s o fun bs t =>
      ∃ b, bs = [b] ∧ t.mode = s.mode ∧
        o = .next { t with responses := t.responses ++ [if failed b then .err .writeFailure else .ok .unit] } := by
  refine ⟨fun u t hu => ?_, fun bs t hbs => ?_⟩
  · rw [ho, postCheck_err hu]; rfl
  · obtain ⟨b, rfl⟩ := readCall_one_byte hbs
    have hmode : t.mode = s.mode := by rw [(transport_eq hbs).2, transport_mode]
    refine ⟨b, rfl, hmode, ?_⟩
    rw [ho, postCheck_ok hbs]
    cases failed b <;> rfl

/-- A main command whose mode effect comes before the post-check: a failure of the command leaves its own state. -/
theorem afterCall_modeWrite_postCheck {c : Call} {m : Mode} {failed : Byte → Bool} {s : State}
    {o : Host.Outcome State Fault Refusal}
    (ho : o = .next (finish (andThen (issueWrite c s) fun _ t =>
      andThen (postCheck failed (setMode m t)) fun _ t => .done .unit t))) :
    AfterCall c s o fun _ s2 =>
      AfterCall (callReadRegister .status) { s2 with mode := some m } o fun bs t =>
        ∃ b, bs = [b] ∧ t.mode = some m ∧
          o = .next { t with responses := t.responses ++ [if failed b then .err .writeFailure else .ok .unit] } := by
  refine ⟨fun u t hu => ?_, fun bs t hbs => afterCall_postCheck (s := setMode m t) ?_⟩
  · rw [ho, issueWrite_err hu]; rfl
  · rw [ho, issueWrite_ok hbs]; rfl

/-- A `Write`-mode request with no operand to check is admitted in that mode. -/
theorem admission_writeOnly {s : State} (hatt : s.life = .attached) (hwrite : s.mode = some .write) :
    admission .writeOnly true s = none :=
  admission_none hatt (by simp [columnAdmits, hwrite])

/-- Settles O42: what the preflight leaves is the erase, the mode written once it is accepted, and the post-check. -/
theorem blockEraseResult : Obligations.BlockEraseResult :=
  fun _ _ hatt hwrite =>
    afterPreflight_intro (admission_writeOnly hatt hwrite) rfl fun _ => afterCall_modeWrite_postCheck

/-- Settles O44: as block erase; `programFailed` tests the two failure bits. -/
theorem programExecuteResult : Obligations.ProgramExecuteResult :=
  fun _ _ hatt hwrite =>
    afterPreflight_intro (admission_writeOnly hatt hwrite) rfl fun _ => afterCall_modeWrite_postCheck

end Sys2Proof.Machine
end

section
/-! PROOFS of the family 44_bbm_lut: the slots of the decoded table (O40) and its read (O39). -/

namespace Sys2Proof.Machine

/-- The bytes `lutSlot` looks up are those of the slot as a run of four. -/
theorem getD_slot (raw : List Byte) (i : Nat) {j : Nat} (h : j < 4) :
    raw.getD (4 * i + j) 0 = ((raw.drop (4 * i)).take 4).getD j 0 := by
  simp [List.getD_eq_getElem?_getD, List.getElem?_take_of_lt h]

theorem lutSlot_of_bytes {raw : List Byte} {i : Nat} {a b c d : Byte}
    (h : (raw.drop (4 * i)).take 4 = [a, b, c, d]) : lutSlot raw i = lutEntry a b c d := by
  have hbyte {j : Nat} (hj : j < 4) : raw.getD (4 * i + j) 0 = [a, b, c, d].getD j 0 := h ▸ getD_slot raw i hj
  have h0 : raw.getD (4 * i) 0 = a := hbyte (j := 0) (by decide)
  have h1 : raw.getD (4 * i + 1) 0 = b := hbyte (by decide)
  have h2 : raw.getD (4 * i + 2) 0 = c := hbyte (by decide)
  have h3 : raw.getD (4 * i + 3) 0 = d := hbyte (by decide)
  rw [lutSlot, h0, h1, h2, h3]

@[simp] theorem decodeLut_length (raw : List Byte) : (decodeLut raw).length = 20 := by
  simp [decodeLut, lutEntries]

theorem decodeLut_getElem? (raw : List Byte) {i : Nat} (h : i < 20) : (decodeLut raw)[i]? = some (lutSlot raw i) := by
  simp [decodeLut, lutEntries, h]

/-- Settles O40: entry `i` is the entry of slot `i`'s bytes, whose halves are `wordOf` of two bytes each. -/
theorem lutSlots : Obligations.LutSlots := by
  refine fun raw => ⟨decodeLut_length raw, fun i a b c d hi hslot => ?_⟩
  refine ⟨wordOf a b, wordOf c d, wordOf_toNat a b, wordOf_toNat c d, ?_⟩
  rw [decodeLut_getElem? raw hi, lutSlot_of_bytes hslot]
  rfl

/-- Settles O39: what the preflight leaves to do is the one call, which asks for 80 bytes. -/
theorem lutReadResult : Obligations.LutReadResult :=
  fun _ hatt => afterPreflight_intro (admission_either hatt) rfl fun _ => afterCall_issue

end Sys2Proof.Machine
end

section
/-! PROOFS of the family 60_exceptions: a failed transport call ends its operation (O51). -/

namespace Sys2Proof.Machine

/-- Between the two states every call but the last succeeded, and a failure of the last is the one response, mapped
(R142, R143). -/
def FailureEnds (s t : State) : Prop :=
  ∃ events, t.transcript = s.transcript ++ events ∧ (∀ e ∈ events.dropLast, EventOk e) ∧
    ∀ e u, events.getLast? = some e → e.result = .err u → t.responses = s.responses ++ [.err (mapError u)]

theorem failureEnds_of_no_calls {s t : State} (h : t.transcript = s.transcript) : FailureEnds s t :=
  ⟨[], by rw [h, List.append_nil], (fun _ he => nomatch he), fun _ _ he => nomatch he⟩

/-- A refusal makes no call, and of an accepted request's calls only the last may have failed. -/
theorem Served.failureEnds {s t : State} (h : Served s t) : FailureEnds s t := by
  obtain ⟨r, rfl⟩ | ⟨u, events, r, hran, rfl, -, hok, hlast⟩ := h
  · exact failureEnds_of_no_calls rfl
  · refine ⟨events, hran.transcript, hok, fun e w he hw => ?_⟩
    rw [respond_responses, hran.responses, hlast e w he hw]

theorem exec_create_transcript {s t : State} (he : exec .create s = .next t) : t.transcript = s.transcript := by
  rw [← next_inj he]
  split <;> rfl

theorem exec_release_transcript {s t : State} (he : exec .release s = .next t) : t.transcript = s.transcript := by
  rw [← next_inj he, serve]
  split <;> rfl

/-- Settles O51: `create` and `release` make no call, and every other request but the wait ends as a served request. -/
theorem failedCallEndsTheOperation : Obligations.FailedCallEndsTheOperation := by
  intro i s t hreq hwait he
  show FailureEnds s t
  by_cases hcreate : i = .create
  · subst hcreate
    exact failureEnds_of_no_calls (exec_create_transcript he)
  by_cases hrelease : i = .release
  · subst hrelease
    exact failureEnds_of_no_calls (exec_release_transcript he)
  obtain ⟨u, hu, hserved⟩ := request_served s hreq hcreate hrelease hwait
  rw [← next_inj (hu.symm.trans he)]
  exact hserved.failureEnds

end Sys2Proof.Machine
end

section
/-! PROOFS of the family 70_reset_and_hazards: creation (O29), and a wait on a chip that stays busy (O53). -/

namespace Sys2Proof.Machine

/-! Creation, on each side of the lifecycle register. -/

theorem exec_create_detached {s : State} (h : s.life = .detached) :
    exec .create s = .next (respond (.ok .unit) { s with life := .attached, mode := some .read }) := by
  simp [exec, execCreate, h]

theorem exec_create_attached {s : State} (h : s.life = .attached) :
    exec .create s = .next (refuse .alreadyAttached s) := by
  simp [exec, execCreate, h]

/-- Settles O29: one answer on each side, written out field by field. -/
theorem createAttaches : Obligations.CreateAttaches :=
  fun _ => ⟨exec_create_detached, exec_create_attached⟩

/-! The wait. -/

/-- A one-byte answer to a register read is returned as it is. -/
theorem answered_readRegister (k : Nat) (r : ChipRegister) (b : Byte) :
    answered k (callReadRegister r) (.ok [b]) = .ok [b] :=
  congrArg CallResult.ok (received_exact k [b])

/-- A register read whose answer is made ready returns it, and the rest stays ready. -/
theorem transport_readRegister_script {r : ChipRegister} {b : Byte} {s : State} {rest : List Answer}
    (h : s.env = .script (.ok [b] :: rest)) :
    ∃ t, transport (callReadRegister r) s = (.ok [b], t) ∧ t.env = .script rest := by
  refine ⟨(transport (callReadRegister r) s).2, Prod.ext ?_ rfl, ?_⟩
  · simp only [transport, h, envAnswer, answered_readRegister]
  · simp only [transport_env, h, envAnswer]

/-- The step of a wait that reads a set busy bit: the wait goes on, and only its one status read is new. -/
theorem step_waiting_busy {s : State} {b : Byte} {rest : List Answer} (hwait : s.activity = .waiting)
    (hbusy : isBusy s.config.regLayout.status b = true) (henv : s.env = .script (.ok [b] :: rest)) :
    ∃ t, step s = .next t ∧ t.activity = .waiting ∧ t.config = s.config ∧ t.env = .script rest ∧
      t.responses = s.responses ∧ t.transcript = s.transcript ++ [⟨callReadRegister .status, .ok [b]⟩] := by
  obtain ⟨u, hread, hrest⟩ := transport_readRegister_script (r := .status) henv
  have hran := Ran.call hread
  exact ⟨{ u with activity := .waiting }, (step_waiting hwait).trans (congrArg _ (pollOnce_busy hread hbusy)), rfl,
    hran.config, hrest, hran.responses, hran.transcript⟩

/-- Settles O53, by induction on the number of steps: each is one busy read, and leaves a wait with one answer fewer. -/
theorem waitHasNoBound : Obligations.WaitHasNoBound := by
  intro k
  induction k with
  | zero => exact fun s _ _ hwait _ _ => ⟨s, rfl, hwait, rfl, (List.append_nil _).symm⟩
  | succ k ih =>
    intro s b rest hwait hbusy henv
    obtain ⟨u, hstep, huwait, hconfig, huenv, huresp, hutrans⟩ := step_waiting_busy hwait hbusy henv
    obtain ⟨t, hrun, htwait, htresp, httrans⟩ := ih u b rest huwait (hconfig ▸ hbusy) huenv
    refine ⟨t, (run_next core hstep).trans hrun, htwait, htresp.trans huresp, ?_⟩
    rw [httrans, hutrans, List.append_assoc, List.singleton_append, List.replicate_succ]

end Sys2Proof.Machine
end

section
/-! PROOFS of the family other, part 1: the register codec (O13, O12) and the encodings (O2, O6, O4, O5, O1, O7, O8,
O9). -/

namespace Sys2Proof.Machine

/-! The register codec. -/

theorem decodeProtection_encode {l : ProtectionLayout} (h : l.Distinct) (p : ProtectionRegister) :
    decodeProtection l (encodeProtection l p) = p := by
  simp only [ProtectionLayout.Distinct, ProtectionLayout.bits, List.nodup_cons, List.mem_cons, not_or,
    List.not_mem_nil, not_false_eq_true, List.nodup_nil, and_true] at h
  simp only [decodeProtection, encodeProtection, bitOf_or, bitOf_bitAt]
  simp [h, eq_comm]

theorem decodeConfiguration_encode {l : ConfigurationLayout} (h : l.Distinct) (c : ConfigurationRegister) :
    decodeConfiguration l (encodeConfiguration l c) = c := by
  simp only [ConfigurationLayout.Distinct, ConfigurationLayout.bits, List.nodup_cons, List.mem_cons, not_or,
    List.not_mem_nil, not_false_eq_true, List.nodup_nil, and_true] at h
  simp only [decodeConfiguration, encodeConfiguration, bitOf_or, bitOf_bitAt]
  simp [h, eq_comm]

/-- Settles O13: a placed field is seen at its own bit, and no other field stands there. -/
theorem codecRoundTripsInAnyLayout : Obligations.CodecRoundTripsInAnyLayout :=
  ⟨fun _ h => decodeProtection_encode h, fun _ h => decodeConfiguration_encode h⟩

/-- A byte is its bits. -/
theorem byte_eq_of_bitOf {a b : Byte} (h : ∀ j, bitOf a j = bitOf b j) : a = b :=
  BitVec.eq_of_getLsbD_eq fun i hi => h ⟨i, hi⟩

/-- In the default layout every bit of the protection byte holds a field. -/
theorem encodeProtection_decode_default (b : Byte) :
    encodeProtection regLayout.protection (decodeProtection regLayout.protection b) = b := by
  refine byte_eq_of_bitOf fun j => ?_
  simp only [encodeProtection, decodeProtection, regLayout, bitOf_or, bitOf_bitAt]
  fin_cases j <;> simp

/-- In the default layout bits 0 to 2 of the configuration byte hold no field. -/
theorem encodeConfiguration_decode_default (b : Byte) :
    encodeConfiguration regLayout.configuration (decodeConfiguration regLayout.configuration b) = b &&& 0xF8 := by
  refine byte_eq_of_bitOf fun j => ?_
  simp only [encodeConfiguration, decodeConfiguration, regLayout, bitOf_or, bitOf_bitAt]
  fin_cases j <;> simp [bitOf]

/-- Settles O12: the decoders look at the table's positions, and re-encoding puts each field back there. -/
theorem registerFieldPositions : Obligations.RegisterFieldPositions :=
  ⟨fun _ => rfl, fun _ => rfl, fun _ => rfl, encodeProtection_decode_default, encodeConfiguration_decode_default⟩

/-- A bit that holds no field is 0 in an encoded configuration value (R104). -/
theorem bitOf_encodeConfiguration_reserved {l : ConfigurationLayout} {j : Fin 8} (h : j ∉ l.bits)
    (c : ConfigurationRegister) : bitOf (encodeConfiguration l c) j = false := by
  simp only [ConfigurationLayout.bits, List.mem_cons, not_or, List.not_mem_nil, not_false_eq_true, and_true] at h
  simp [encodeConfiguration, bitOf_or, bitOf_bitAt, h, eq_comm]

/-! The request frames. -/

theorem decodeWordOperand_bytes (f : Word → Instr) (v : Word) (rest : List Byte) :
    decodeWordOperand f (wordBytes v ++ rest) = .instr (f v) rest := by
  simp [decodeWordOperand, wordBytes]

theorem decodeReadDataBuffer_bytes (m : ReadMethod) (ca : Word) {n : Nat} (h : n < 65536) (rest : List Byte) :
    decodeReadDataBuffer (readMethodCode m :: (wordBytes ca ++ wordBytes (BitVec.ofNat 16 n)) ++ rest) =
      .instr (.readDataBuffer m ca n) rest := by
  simp [decodeReadDataBuffer, wordBytes, Nat.mod_eq_of_lt h]

theorem decodeLoad_bytes (m : WriteMethod) (clear : Bool) (ca : Word) {data : List Byte} (h : data.length < 65536)
    (rest : List Byte) :
    decodeLoad (writeMethodCode m :: boolCode clear ::
        (wordBytes ca ++ (wordBytes (BitVec.ofNat 16 data.length) ++ data)) ++ rest) =
      .instr (.loadToDataBuffer m clear ca data) rest := by
  simp [decodeLoad, wordBytes, Nat.mod_eq_of_lt h]

theorem frameLengthWf_lt {n : Nat} (h : frameLengthWf n = true) : n < 65536 := by
  simp only [frameLengthWf, Bool.and_eq_true, decide_eq_true_eq] at h
  exact h.2

/-- Settles O6: each decoder of operands reads exactly the operand bytes and hands the rest back. -/
theorem surplusFrameBytesIgnored : Obligations.SurplusFrameBytesIgnored := by
  intro l i f extra ⟨_, hprot, hconf⟩ hwf hf
  cases i with
  | create | release | resetDevice | getJedecId | checkBusy | waitWhileBusy | readStatusRegister
  | readProtectionRegister | readConfigurationRegister | readBbmLookupTable | enableWrite | disableWrite => cases hf; rfl
  | writeProtectionRegister p =>
    cases hf
    exact congrArg (fun q => Decoded.instr (.writeProtectionRegister q) extra) (decodeProtection_encode hprot p)
  | writeConfigurationRegister c =>
    cases hf
    exact congrArg (fun q => Decoded.instr (.writeConfigurationRegister q) extra) (decodeConfiguration_encode hconf c)
  | setWriteProtection p =>
    cases hf
    exact congrArg (fun q => Decoded.instr (.setWriteProtection q) extra) (decodeProtection_encode hprot p)
  | setContinuousReadMode v => cases hf; cases v <;> rfl
  | readMemoryToDataBuffer v | erase128kbBlock v | writeDataBufferToMemory v =>
    cases hf; exact decodeWordOperand_bytes _ v extra
  | readDataBuffer m ca n => cases hf; exact decodeReadDataBuffer_bytes m ca (frameLengthWf_lt hwf) extra
  | loadToDataBuffer m clear ca data => cases hf; exact decodeLoad_bytes m clear ca (frameLengthWf_lt hwf) extra
  | _ => cases hf

/-- A bus command is read back from its transport call. -/
theorem decodeCall_of_encode {l : RegLayout} {i : Instr} {c : Call} (h : encode l i = .call c) :
    decodeCall c = some i := by
  cases i with
  | cmdDeviceReset => cases h; exact decodeCall_deviceReset
  | cmdJedecId => cases h; exact decodeCall_jedecId
  | cmdReadRegister r => cases h; exact decodeCall_readRegister r
  | cmdWriteRegister r v => cases h; exact decodeCall_writeRegister r v
  | cmdWriteEnable => cases h; exact decodeCall_writeEnable
  | cmdWriteDisable => cases h; exact decodeCall_writeDisable
  | cmdBlockErase ea => cases h; exact decodeCall_blockErase ea
  | cmdPageDataRead pa => cases h; exact decodeCall_pageDataRead pa
  | cmdProgramExecute pa => cases h; exact decodeCall_programExecute pa
  | cmdLoadClearSingle ca data => cases h; exact decodeCall_loadClearSingle ca data
  | cmdLoadRandomSingle ca data => cases h; exact decodeCall_loadRandomSingle ca data
  | cmdLoadClearQuad ca data => cases h; exact decodeCall_loadClearQuad ca data
  | cmdLoadRandomQuad ca data => cases h; exact decodeCall_loadRandomQuad ca data
  | cmdReadBbmLut => cases h; exact decodeCall_readBbmLut
  | cmdFastRead ca n => cases h; exact decodeCall_fastRead ca n
  | cmdFastReadDualOutput ca n => cases h; exact decodeCall_fastReadDualOutput ca n
  | cmdFastReadQuadOutput ca n => cases h; exact decodeCall_fastReadQuadOutput ca n
  | cmdFastReadDualIO ca n => cases h; exact decodeCall_fastReadDualIO ca n
  | cmdFastReadQuadIO ca n => cases h; exact decodeCall_fastReadQuadIO ca n
  | _ => cases h

/-- Settles O2: a frame is one with no surplus bytes, and a call decodes to its command. -/
theorem encodedInstructionsDecode : Obligations.EncodedInstructionsDecode := by
  intro l i hdistinct hwf
  cases he : encode l i with
  | frame f =>
    have hdecode := surplusFrameBytesIgnored l i f [] hdistinct hwf he
    rwa [List.append_nil] at hdecode
  | call c => simp [decode, decodeCall_of_encode he]

/-! Frames that are refused. -/

theorem decodeByteOperand_short (f : Byte → Instr) {ops : List Byte} (h : ops.length < 1) :
    decodeByteOperand f ops = .refused .badOperand := by
  unfold decodeByteOperand
  split
  · simp at h
  · rfl

theorem decodeWordOperand_short (f : Word → Instr) {ops : List Byte} (h : ops.length < 2) :
    decodeWordOperand f ops = .refused .badOperand := by
  unfold decodeWordOperand
  split
  · simp at h
  · rfl

theorem decodeContinuous_short {ops : List Byte} (h : ops.length < 1) :
    decodeContinuous ops = .refused .badOperand := by
  unfold decodeContinuous
  split
  · simp at h
  · rfl

theorem decodeReadDataBuffer_short {ops : List Byte} (h : ops.length < 5) :
    decodeReadDataBuffer ops = .refused .badOperand := by
  unfold decodeReadDataBuffer
  split
  · simp only [List.length_cons] at h; omega
  · rfl

theorem decodeLoad_short {ops : List Byte} (h : ops.length < 6) : decodeLoad ops = .refused .badOperand := by
  unfold decodeLoad
  split
  · simp only [List.length_cons] at h; omega
  · rfl

/-- A load frame with fewer data bytes than its count says. -/
theorem decodeLoad_few_data (m cl c1 c0 : Byte) {k : Nat} (hk : k < 65536) {rest : List Byte} (h : rest.length < k) :
    decodeLoad (m :: cl :: c1 :: c0 :: (wordBytes (BitVec.ofNat 16 k) ++ rest)) = .refused .badOperand := by
  simp only [decodeLoad, wordBytes, List.cons_append, List.nil_append, wordOf_bytes, ofNat_toNat_of_lt hk, if_pos h]
  split <;> rfl

/-- The operands of a load frame cut short: before its data, or within it. -/
theorem decodeLoad_cut (m clear : Byte) (ca : Word) {data : List Byte} (hlen : data.length < 65536) {j : Nat}
    (h : j < 6 + data.length) :
    decodeLoad ((m :: clear :: (wordBytes ca ++ (wordBytes (BitVec.ofNat 16 data.length) ++ data))).take j) =
      .refused .badOperand := by
  by_cases hhead : j < 6
  · exact decodeLoad_short (by rw [List.length_take]; omega)
  · obtain ⟨k, rfl⟩ : ∃ k, j = k + 6 := ⟨j - 6, by omega⟩
    exact decodeLoad_few_data m clear _ _ hlen (rest := data.take k) (by rw [List.length_take]; omega)

/-- Settles O4: what is left of the operands is shorter than their decoder asks for. -/
theorem cutFramesAreBadOperands : Obligations.CutFramesAreBadOperands := by
  intro l i f k hwf hf hk hlen
  obtain ⟨j, rfl⟩ : ∃ j, k = j + 1 := ⟨k - 1, by omega⟩
  have hcut {ops : List Byte} {n : Nat} (h : j < n) : (ops.take j).length < n := by
    rw [List.length_take]; omega
  cases i with
  | create | release | resetDevice | getJedecId | checkBusy | waitWhileBusy | readStatusRegister
  | readProtectionRegister | readConfigurationRegister | readBbmLookupTable | enableWrite | disableWrite => cases hf; simp at hlen
  | writeProtectionRegister _ | writeConfigurationRegister _ | setWriteProtection _ =>
    cases hf; exact decodeByteOperand_short _ (hcut (Nat.lt_of_succ_lt_succ hlen))
  | setContinuousReadMode _ => cases hf; exact decodeContinuous_short (hcut (Nat.lt_of_succ_lt_succ hlen))
  | readMemoryToDataBuffer _ | erase128kbBlock _ | writeDataBufferToMemory _ =>
    cases hf; exact decodeWordOperand_short _ (hcut (Nat.lt_of_succ_lt_succ hlen))
  | readDataBuffer _ _ _ => cases hf; exact decodeReadDataBuffer_short (hcut (Nat.lt_of_succ_lt_succ hlen))
  | loadToDataBuffer _ _ _ data =>
    cases hf
    refine decodeLoad_cut _ _ _ (frameLengthWf_lt hwf) ?_
    simp only [wordBytes, List.length_cons, List.length_append, List.length_nil] at hlen
    omega
  | _ => cases hf

theorem decodeRequest_unknown (l : RegLayout) {code : Byte} (ops : List Byte) (h : 0x14 < code.toNat) :
    decodeRequest l (code :: ops) = .refused .unknownOperation := by
  dsimp only [decodeRequest]
  split
  case h_22 => rfl
  all_goals omega

theorem readMethodOf_reserved {b : Byte} (h : 4 < b.toNat) : readMethodOf b = none := by
  unfold readMethodOf
  split
  case h_6 => rfl
  all_goals omega

theorem writeMethodOf_reserved {b : Byte} (h : 1 < b.toNat) : writeMethodOf b = none := by
  unfold writeMethodOf
  split
  case h_3 => rfl
  all_goals omega

theorem boolOf_reserved {b : Byte} (h : 1 < b.toNat) : boolOf b = none := by
  unfold boolOf
  split
  case h_3 => rfl
  all_goals omega

theorem decodeReadDataBuffer_reserved {m : Byte} (h : readMethodOf m = none) (ops : List Byte) :
    decodeReadDataBuffer (m :: ops) = .refused .badOperand := by
  unfold decodeReadDataBuffer
  split
  next heq => cases heq; rw [h]
  next => rfl

/-- A load whose method or clear flag is out of its enumeration. -/
theorem decodeLoad_reserved {m cl : Byte} (h : writeMethodOf m = none ∨ boolOf cl = none) (ops : List Byte) :
    decodeLoad (m :: cl :: ops) = .refused .badOperand := by
  unfold decodeLoad
  split
  next heq =>
    cases heq
    split
    next hm hc => simp [hm, hc] at h
    next => rfl
  next => rfl

/-- Settles O5: a code above 0x14 is no case of the decoder, and the operand decoders look their bytes up. -/
theorem reservedRequestBytesRefused : Obligations.ReservedRequestBytesRefused := by
  intro l ops
  refine ⟨fun _ => decodeRequest_unknown l ops, fun _ h => decodeReadDataBuffer_reserved (readMethodOf_reserved h) ops,
    fun m h => ?_, fun _ _ h => decodeLoad_reserved (.inr (boolOf_reserved h)) ops, fun v h => ?_⟩
  · cases ops with
    | nil => exact decodeLoad_short (ops := [m]) (by simp)
    | cons cl ops => exact decodeLoad_reserved (.inl (writeMethodOf_reserved h)) ops
  · show decodeContinuous (v :: ops) = _
    simp [decodeContinuous, boolOf_reserved h]

/-! Encodings written out. -/

/-- Settles O1: the decoders evaluated; no frame here holds a register value, so no layout is looked at. -/
theorem writtenOutEncodingsDecode : Obligations.WrittenOutEncodingsDecode :=
  ⟨fun _ => ⟨rfl, rfl, rfl, rfl⟩, by decide, by decide⟩

/-- Settles O7: each command's call, its descriptor written out. -/
theorem controlCommandDescriptors : Obligations.ControlCommandDescriptors :=
  ⟨rfl, rfl, rfl, rfl, rfl, fun _ => rfl, fun _ => rfl, rfl, rfl, fun _ => rfl, fun _ => rfl, fun _ => rfl, rfl⟩

/-- Settles O8: each command's call, its descriptor written out. -/
theorem bufferCommandDescriptors : Obligations.BufferCommandDescriptors :=
  fun _ _ _ => ⟨rfl, rfl, rfl, rfl, rfl, rfl, rfl, rfl, rfl⟩

/-- Masking with 0xFFC0 rounds down to a multiple of 64: it shifts the low six bits out and back in as 0. -/
theorem eraseAddress_blockAligned_toNat (pa : Word) :
    (eraseAddress .blockAligned pa).toNat = 64 * (pa.toNat / 64) := by
  have hmask : eraseAddress .blockAligned pa = pa >>> 6 <<< 6 := by rw [BitVec.shiftLeft_ushiftRight]; rfl
  have hlt := pa.isLt
  rw [hmask, BitVec.toNat_shiftLeft, BitVec.toNat_ushiftRight, Nat.shiftRight_eq_div_pow, Nat.shiftLeft_eq]
  omega

/-- Settles O9: the mask keeps whole blocks, and a page phase sends the word's two halves. -/
theorem addressFields : Obligations.AddressFields :=
  ⟨fun _ => rfl, eraseAddress_blockAligned_toNat, fun pa => ⟨highByte pa, lowByte pa, rfl, word_toNat_split pa⟩⟩

end Sys2Proof.Machine
end

section
/-! PROOFS of the family other, part 2: the transport (O14, O15), the step (O16 to O21, O23), admission (O24 to O27) and
results (O36, O38, O43, O46, O47, O55). -/

namespace Sys2Proof.Machine

/-! The transport. -/

/-- Settles O14: a call writes the environment, the count and the transcript. -/
theorem transportCallsAreRecorded : Obligations.TransportCallsAreRecorded := by
  intro c s t r h
  obtain ⟨rfl, rfl⟩ := transport_eq h
  exact ⟨transport_fits c s, rfl, rfl, rfl, rfl, rfl, rfl, rfl, rfl, rfl⟩

/-- An answer with the bytes of a result of the right shape gives that result. -/
theorem completed_of_fits (k : Nat) {c : Call} {bs : List Byte} (h : ResultFits c (.ok bs)) :
    completed k c bs = .ok bs := by
  cases c with
  | write d p => obtain rfl : bs = [] := h; rfl
  | transfer d n => obtain rfl : bs.length = n := h; exact congrArg CallResult.ok (received_exact k bs)

/-- Settles O15: the environment has the result ready as its next answer. -/
theorem environmentIsAnOracle : Obligations.EnvironmentIsAnOracle := by
  intro c r s hfits
  cases r with
  | ok bs => exact ⟨.script [.ok bs], completed_of_fits s.calls hfits⟩
  | err t => exact ⟨.script [.err t], rfl⟩

/-! The step. -/

theorem fetch_frame {s : State} {frame extra : List Byte} {rest : List (List Byte)} {i : Instr}
    (hidle : s.activity = .idle) (hframed : s.framed = none) (hreq : s.requests = frame :: rest)
    (hdec : decodeRequest s.config.regLayout frame = .instr i extra) :
    fetch s = .run i { s with requests := rest } := by
  simp [fetch, fetchRequest, hidle, hframed, hreq, hdec]

theorem fetch_refusedFrame {s : State} {frame : List Byte} {rest : List (List Byte)} {r : RefusalReason}
    (hidle : s.activity = .idle) (hframed : s.framed = none) (hreq : s.requests = frame :: rest)
    (hdec : decodeRequest s.config.regLayout frame = .refused r) :
    fetch s = .refusedFrame (frameRefusal r s) { s with requests := rest } := by
  simp [fetch, fetchRequest, hidle, hframed, hreq, hdec]

theorem fetch_command {s : State} {c : Call} {i : Instr} (hidle : s.activity = .idle) (hframed : s.framed = some c)
    (hdec : decodeCall c = some i) : fetch s = .run i { s with framed := none } := by
  simp [fetch, hidle, hframed, hdec]

theorem fetch_neverBuilt {s : State} {c : Call} (hidle : s.activity = .idle) (hframed : s.framed = some c)
    (hdec : decodeCall c = none) : fetch s = .neverBuilt := by
  simp [fetch, hidle, hframed, hdec]

theorem fetch_idle {s : State} (hidle : s.activity = .idle) (hframed : s.framed = none) (hreq : s.requests = []) :
    fetch s = .idle := by
  simp [fetch, fetchRequest, hidle, hframed, hreq]

theorem step_of_run {s s' : State} {i : Instr} (h : fetch s = .run i s') : step s = unlessRefused s (exec i s') := by
  simp [step, blockStep, h]

/-- Which requests were refused is read off the response port alone. -/
theorem unlessRefused_congr {s s' : State} (h : s.responses = s'.responses)
    (o : Host.Outcome State Fault Refusal) : unlessRefused s o = unlessRefused s' o := by
  cases o with
  | next t => simp [unlessRefused, refusalBetween, h]
  | fault f => rfl
  | refused r => rfl

/-- Settles O16: taking the encoding off its port leaves the responses, so the step compares with the same ones. -/
theorem stepRunsTheDecodedInstruction : Obligations.StepRunsTheDecodedInstruction := by
  refine ⟨fun s s' i hidle hport => ?_, fun s c hidle hframed hdec => ?_⟩
  · have hstep : step s = unlessRefused s' (exec i s') := by
      obtain ⟨frame, extra, rest, hframed, hreq, hdec, rfl⟩ | ⟨c, hframed, hdec, rfl⟩ := hport
      · rw [step_of_run (fetch_frame hidle hframed hreq hdec)]
        exact unlessRefused_congr rfl _
      · rw [step_of_run (fetch_command hidle hframed hdec)]
        exact unlessRefused_congr rfl _
    refine ⟨fun t he hkept => ?_, fun t r he href => ?_, fun f he => ?_⟩
    · rw [hstep, he, unlessRefused_kept hkept]
    · rw [hstep, he, unlessRefused_refused href]
    · rw [hstep, he]; rfl
  · simp [step, blockStep, fetch_neverBuilt hidle hframed hdec, unlessRefused]

theorem fetch_placed {i : Instr} {s : State} (hdistinct : s.config.regLayout.Distinct) (hwf : i.wf = true) :
    fetch (placeEncoding (encode s.config.regLayout i) s) = .run i { s with activity := .idle, framed := none } := by
  have hdec := encodedInstructionsDecode _ i hdistinct hwf
  cases he : encode s.config.regLayout i with
  | frame bytes => exact fetch_frame (s := placeEncoding (.frame bytes) s) rfl rfl rfl (he ▸ hdec)
  | call c => exact fetch_command (s := placeEncoding (.call c) s) rfl rfl (decodeCall_of_encode he)

theorem placeEncoding_responses (e : Encoding) (s : State) : (placeEncoding e s).responses = s.responses := by
  cases e <;> rfl

/-- Settles O17: the placed encoding decodes to its instruction and is what the step fetches. -/
theorem placedInstructionRunsNext : Obligations.PlacedInstructionRunsNext := by
  intro i s hdistinct hwf
  rw [step_of_run (fetch_placed hdistinct hwf)]
  exact unlessRefused_congr (placeEncoding_responses _ s) _

/-- An iteration of the wait is one status read, and takes no request. -/
theorem pollOnce_ran (s : State) :
    (pollOnce s).requests = s.requests ∧
      ∃ r, (pollOnce s).transcript = s.transcript ++ [⟨callReadRegister .status, r⟩] := by
  obtain ⟨r, t, ht, hp, -⟩ | ⟨b, t, ht, -, hp⟩ := pollOnce_cases s
  · exact hp ▸ ⟨(Ran.call ht).requests, r, (Ran.call ht).transcript⟩
  · exact hp ▸ ⟨(Ran.call ht).requests, _, (Ran.call ht).transcript⟩

/-- Settles O18: the step of a wait is its next iteration. -/
theorem waitInProgressHoldsRequests : Obligations.WaitInProgressHoldsRequests := by
  intro s t hwait hstep
  obtain rfl := next_inj ((step_waiting hwait).symm.trans hstep)
  exact pollOnce_ran s

/-- Settles O19: nothing is fetched, so nothing is answered. -/
theorem idleBlockWaits : Obligations.IdleBlockWaits := by
  intro s hidle hframed hreq
  have hblock : blockStep s = .next s := by simp [blockStep, fetch_idle hidle hframed hreq]
  rw [step, hblock, unlessRefused_silent rfl]

/-- The block's move and the step at a frame that does not decode. -/
theorem refusedFrame_step {s s' : State} {r : RefusalReason} (h : fetch s = .refusedFrame r s')
    (hresp : s'.responses = s.responses) :
    blockStep s = .next (refuse r s') ∧ step s = .refused (.request r) := by
  have hblock : blockStep s = .next (refuse r s') := by simp [blockStep, h]
  refine ⟨hblock, ?_⟩
  rw [step, hblock, unlessRefused_refused (q := r) (by simp [hresp])]

/-- Settles O20: the reason is the decoder's, unless the block is detached. -/
theorem undecodedFrameRefused : Obligations.UndecodedFrameRefused := by
  intro s frame rest r hidle hframed hreq hdec
  have hmove := refusedFrame_step (fetch_refusedFrame hidle hframed hreq hdec) rfl
  refine ⟨fun hatt => ?_, fun hdet => ?_⟩
  · rw [show frameRefusal r s = r by simp [frameRefusal, hatt]] at hmove
    exact hmove
  · rw [show frameRefusal r s = .notAttached by simp [frameRefusal, hdet]] at hmove
    exact hmove

/-! Reset. -/

/-- Settles O21: nothing has been done yet, and the default layout is distinct. -/
theorem resetMeetsInvariant : Obligations.ResetMeetsInvariant := by
  have hlayout : regLayout.Distinct := by decide
  exact ⟨⟨by decide, fun _ => rfl, rfl, (fun _ h => nomatch h), trivial, hlayout, fun _ h => nomatch h⟩,
    ⟨by decide, (fun h => nomatch h), rfl, (fun _ h => nomatch h), trivial, hlayout, fun _ h => nomatch h⟩⟩

/-- Settles O23: the fields as they were written down. -/
theorem resetState : Obligations.ResetState :=
  ⟨rfl, rfl, rfl, rfl, rfl, rfl, rfl, rfl, rfl, rfl⟩

/-! Admission. -/

/-- Settles O24: what `exec_detached` says, the refusal written out. -/
theorem detachedRefusesRequests : Obligations.DetachedRefusesRequests :=
  fun _ _ hreq hcreate hdet => exec_detached hdet hreq hcreate

/-- A request but `create` is admitted by its own mode column and its length, and does nothing else where it is not. -/
theorem exec_refused {i : Instr} (s : State) (hreq : i.isRequest = true) (hcreate : i ≠ .create) :
    ∃ ok, (ok = true ↔ lengthsOk s.config i) ∧
      ∀ r, admission (requestColumn i) ok s = some r → exec i s = .next (refuse r s) := by
  cases i with
  | create => contradiction
  | readDataBuffer _ _ _ | loadToDataBuffer _ _ _ _ =>
    exact ⟨_, lengthOk_iff _ _, fun r h => congrArg _ (serveGated_refused h)⟩
  | waitWhileBusy =>
    refine ⟨true, by simp [lengthsOk], fun r h => ?_⟩
    have hrefused : admission .either true s = some r := h
    simp [exec, execWaitWhileBusy, hrefused]
  | release | resetDevice | getJedecId | checkBusy | readStatusRegister | readProtectionRegister
  | readConfigurationRegister | writeProtectionRegister _ | writeConfigurationRegister _ | setWriteProtection _
  | setContinuousReadMode _ | readMemoryToDataBuffer _ | readBbmLookupTable | enableWrite | disableWrite
  | erase128kbBlock _ | writeDataBufferToMemory _ =>
    exact ⟨true, by simp [lengthsOk], fun r h => congrArg _ (serve_refused h)⟩
  | _ => cases hreq

/-- Settles O25: the admission of an attached block looks at the length, then at the mode. -/
theorem admissionChecksLengthThenMode : Obligations.AdmissionChecksLengthThenMode := by
  intro i s hreq hcreate hatt
  obtain ⟨ok, hok, hrefused⟩ := exec_refused s hreq hcreate
  refine ⟨fun hlen => ?_, fun hlen hcol => ?_⟩
  · obtain rfl : ok = false := Bool.eq_false_iff.mpr fun h => hlen (hok.mp h)
    exact hrefused _ (admission_badOperand hatt)
  · obtain rfl := hok.mpr hlen
    exact hrefused _ (admission_wrongMode hatt hcol)

/-- What an instruction that goes on has done, and which instruction it then is: it was refused, or it is one of the three
requests with a rule of their own, or a bus command that made its call, or a request that was served and answered. -/
inductive Effect (i : Instr) (s : State) : State → Prop
  | refused (r : RefusalReason) : Effect i s (refuse r s)
  | created (hi : i = .create) (h : s.life = .detached) :
    Effect i s (respond (.ok .unit) { s with life := .attached, mode := some .read })
  | released (hi : i = .release) : Effect i s (respond (.ok .unit) { s with life := .detached, mode := none })
  | polled (hi : i = .waitWhileBusy) : Effect i s (pollOnce s)
  | called (hi : i.isRequest = false) (c : Call) : Effect i s (transport c s).2
  | answered (hi : i.isRequest = true) (hcreate : i ≠ .create) (hrelease : i ≠ .release) (hwait : i ≠ .waitWhileBusy)
    (u : State) (events : List Event) (r : Response) (hran : Ran s u events) (hacc : Response.accepted r = true) :
    Effect i s (respond r u)

theorem exec_effect {i : Instr} {s t : State} (he : exec i s = .next t) : Effect i s t := by
  cases hr : i.isRequest with
  | false =>
    obtain ⟨-, ⟨c, -, rfl⟩ | rfl⟩ := command_cases hr he
    · exact .called hr c
    · exact .refused _
  | true =>
    by_cases hcreate : i = .create
    · subst hcreate
      cases hl : s.life with
      | detached => exact next_inj ((exec_create_detached hl).symm.trans he) ▸ .created rfl hl
      | attached => exact next_inj ((exec_create_attached hl).symm.trans he) ▸ .refused _
    cases hl : s.life with
    | detached => exact next_inj ((exec_detached hl hr hcreate).symm.trans he) ▸ .refused _
    | attached =>
      by_cases hrelease : i = .release
      · subst hrelease
        exact next_inj ((releaseDetaches s hl).symm.trans he) ▸ .released rfl
      by_cases hwait : i = .waitWhileBusy
      · subst hwait
        exact next_inj ((exec_waitWhileBusy hl).symm.trans he) ▸ .polled rfl
      obtain ⟨u, hu, ⟨r, rfl⟩ | ⟨v, events, r, hran, rfl, hacc, -⟩⟩ := request_served s hr hcreate hrelease hwait
      · exact next_inj (hu.symm.trans he) ▸ .refused r
      · exact next_inj (hu.symm.trans he) ▸ .answered hr hcreate hrelease hwait _ _ _ hran hacc

/-- An iteration of the wait answers `Ok`, or stays in progress with no response. -/
theorem pollOnce_responses (s : State) :
    (pollOnce s).responses = s.responses ++ [.ok .unit] ∨
      (pollOnce s).activity = .waiting ∧ (pollOnce s).responses = s.responses := by
  obtain ⟨r, t, ht, hp, -⟩ | ⟨b, t, ht, -, hp⟩ := pollOnce_cases s
  · exact .inl (by rw [hp, endWait_responses, (Ran.call ht).responses])
  · exact .inr (hp ▸ ⟨rfl, (Ran.call ht).responses⟩)

/-- Settles O26: no other effect than a refusal answers one. -/
theorem refusedRequestsChangeNothing : Obligations.RefusedRequestsChangeNothing := by
  intro i s t r hreq he hresp
  refine ⟨?_, by rw [he, unlessRefused_refused hresp]⟩
  cases exec_effect he with
  | refused q =>
    obtain rfl : q = r := by simpa using hresp
    rfl
  | created hi hdet => simp at hresp
  | released hi => simp at hresp
  | polled hi => obtain h | ⟨-, h⟩ := pollOnce_responses s <;> simp [h] at hresp
  | called hi c => simp at hresp
  | answered _ _ _ _ u events q hran hacc =>
    simp only [respond_responses, hran.responses, List.append_cancel_left_eq, List.cons.injEq, and_true] at hresp
    subst hresp
    cases hacc

theorem transact_detached {c : Call} {s : State} (h : s.life = .detached) : transact c s = .fault .noTransport := by
  simp [transact, h]

theorem transactData_detached {c : Call} {n : Nat} {s : State} (h : s.life = .detached) :
    transactData c n s = .fault .noTransport := by
  simp [transactData, h]

/-- Settles O27: every bus command is a transaction, with or without a length to check. -/
theorem commandsNeedTheTransport : Obligations.CommandsNeedTheTransport := by
  intro i s hreq hdet
  cases i with
  | cmdDeviceReset | cmdJedecId | cmdReadRegister _ | cmdWriteRegister _ _ | cmdWriteEnable | cmdWriteDisable
  | cmdBlockErase _ | cmdPageDataRead _ | cmdProgramExecute _ | cmdReadBbmLut => exact transact_detached hdet
  | cmdLoadClearSingle _ _ | cmdLoadRandomSingle _ _ | cmdLoadClearQuad _ _ | cmdLoadRandomQuad _ _ | cmdFastRead _ _
  | cmdFastReadDualOutput _ _ | cmdFastReadQuadOutput _ _ | cmdFastReadDualIO _ _ | cmdFastReadQuadIO _ _ =>
    exact transactData_detached hdet
  | _ => cases hreq

/-! Results. -/

/-- What the preflight leads to may use that it leaves the mode. -/
theorem AfterPreflight.imp_mode {s : State} {o : Host.Outcome State Fault Refusal} {k k' : State → Prop}
    (h : AfterPreflight s o k) (hk : ∀ t, t.mode = s.mode → k t → k' t) : AfterPreflight s o k' := by
  obtain ⟨hfail, hok⟩ := h
  refine ⟨hfail, fun bs t hbs => ?_⟩
  obtain ⟨b, hb, hbusy, hfree⟩ := hok bs t hbs
  have hmode : t.mode = s.mode := by rw [(transport_eq hbs).2, transport_mode]
  exact ⟨b, hb, hbusy, fun hnot => hk t hmode (hfree hnot)⟩

/-- What a call leads to may use that it leaves the mode. -/
theorem AfterCall.imp_mode {c : Call} {s : State} {o : Host.Outcome State Fault Refusal}
    {k k' : List Byte → State → Prop} (h : AfterCall c s o k) (hk : ∀ bs t, t.mode = s.mode → k bs t → k' bs t) : AfterCall c s o k' := by
  obtain ⟨hfail, hok⟩ := h
  refine ⟨hfail, fun bs t hbs => hk bs t ?_ (hok bs t hbs)⟩
  rw [(transport_eq hbs).2, transport_mode]

/-- What the preflight of `set_continuous_read_mode` leaves to do: read, modify, write. -/
theorem afterCall_readModifyWrite {r : ChipRegister} {w : WritableRegister} {f : Byte → Byte} {s : State}
    {o : Host.Outcome State Fault Refusal}
    (ho : o = .next (finish (andThen (readReg r s) fun b t => andThen (writeReg w (f b) t) fun _ t => .done .unit t))) :
    AfterCall (callReadRegister r) s o fun bs t =>
      ∃ b, bs = [b] ∧ AfterCall (callWriteRegister w (f b)) t o fun _ u =>
        o = .next { u with responses := u.responses ++ [.ok .unit] } := by
  refine ⟨fun u t hu => ?_, fun bs t hbs => ?_⟩
  · rw [ho, readReg_err hu]; rfl
  · obtain ⟨b, rfl⟩ := readCall_one_byte hbs
    exact ⟨b, rfl, afterCall_writeReg (by rw [ho, readReg_ok hbs]; rfl)⟩

/-- Settles O36: the byte written is the encoding of the fields read with `buf` replaced. -/
theorem setContinuousReadModeRewrites : Obligations.SetContinuousReadModeRewrites := by
  rintro s cont l rfl hdistinct hatt
  refine afterPreflight_intro (admission_either hatt) rfl fun t ho =>
    (afterCall_readModifyWrite ho).imp_mode fun bs u _ ⟨b, hb, hwrite⟩ => ?_
  exact ⟨b, _, hb, decodeConfiguration_encode hdistinct _,
    fun j hj => bitOf_encodeConfiguration_reserved hj _, hwrite⟩

/-- A fast read that succeeds returns the bytes it asks for. -/
theorem callRead_fits {m : ReadMethod} {ca : Word} {n : Nat} {bs : List Byte}
    (h : ResultFits (callRead m ca n) (.ok bs)) : bs.length = n := by
  cases m <;> exact h

/-- Settles O38: what the preflight leaves to do is the one fast read. -/
theorem bufferReadResult : Obligations.BufferReadResult := by
  intro s m ca n hatt hmin hmax
  have hok : s.config.lengthOk n = true := (lengthOk_iff _ _).mpr ⟨hmin, hmax⟩
  have hadm : admission .either (s.config.lengthOk n) s = none := hok ▸ admission_either hatt
  exact afterPreflight_intro hadm rfl fun t ho => (afterCall_issue ho).imp_mode fun _ _ _ ⟨hfits, hexec⟩ =>
    ⟨callRead_fits hfits, hexec⟩

/-- Settles O43: what the preflight leaves to do is the one load, and neither call writes the mode. -/
theorem bufferLoadResult : Obligations.BufferLoadResult := by
  intro s m clear ca data hatt hwrite hmin hmax
  have hok : s.config.lengthOk data.length = true := (lengthOk_iff _ _).mpr ⟨hmin, hmax⟩
  have hadm : admission .writeOnly (s.config.lengthOk data.length) s = none := hok ▸ admission_writeOnly hatt hwrite
  refine (afterPreflight_intro hadm rfl fun t => afterCall_issueWrite).imp_mode fun t ht h =>
    h.imp_mode fun _ u hu hexec => ⟨?_, hexec⟩
  rw [hu, ht, hwrite]

/-- Settles O46: a transaction on an attached block is its call. -/
theorem controlCommandsMakeTheirCall : Obligations.ControlCommandsMakeTheirCall := by
  intro s hatt
  have hcall (c : Call) : transact c s = .next (transport c s).2 := transact_attached hatt
  exact ⟨hcall _, hcall _, fun _ => hcall _, fun _ _ => hcall _, hcall _, hcall _, fun _ => hcall _, fun _ => hcall _,
    fun _ => hcall _, hcall _⟩

/-- Settles O47: a transaction of a legal length on an attached block is its call. -/
theorem bufferCommandsMakeTheirCall : Obligations.BufferCommandsMakeTheirCall := by
  intro s ca hatt
  have hcall (c : Call) {n : Nat} (hmin : 1 ≤ n) (hmax : n ≤ s.config.maxXfer) :
      transactData c n s = .next (transport c s).2 :=
    transactData_attached hatt ((lengthOk_iff _ _).mpr ⟨hmin, hmax⟩)
  exact ⟨fun _ hmin hmax => ⟨hcall _ hmin hmax, hcall _ hmin hmax, hcall _ hmin hmax, hcall _ hmin hmax⟩,
    fun _ hmin hmax =>
      ⟨hcall _ hmin hmax, hcall _ hmin hmax, hcall _ hmin hmax, hcall _ hmin hmax, hcall _ hmin hmax⟩⟩

/-- Settles O55: the codes as they were written down. -/
theorem responseCodes : Obligations.ResponseCodes :=
  ⟨fun _ => rfl, rfl, rfl, rfl, rfl, rfl, rfl, rfl, rfl, rfl, rfl⟩

end Sys2Proof.Machine
end

section
/-! PROOFS of the family other, part 3: the rules of the whole machine (O48, O49, O50, O54). -/

namespace Sys2Proof.Machine

/-! The frame, the mode and the answers, from what an instruction can have done. -/

/-- An iteration of the wait writes the environment, its own record and the wait in progress. -/
theorem pollOnce_frame (s : State) :
    (pollOnce s).life = s.life ∧ (pollOnce s).mode = s.mode ∧ (pollOnce s).framed = s.framed ∧
      (pollOnce s).config = s.config := by
  obtain ⟨r, t, ht, hp, -⟩ | ⟨b, t, ht, -, hp⟩ := pollOnce_cases s
  · obtain ⟨-, rfl⟩ := transport_eq ht
    exact hp ▸ ⟨rfl, rfl, rfl, rfl⟩
  · obtain ⟨-, rfl⟩ := transport_eq ht
    exact hp ▸ ⟨rfl, rfl, rfl, rfl⟩

/-- Settles O48, by what the instruction has done. -/
theorem instructionFrame : Obligations.InstructionFrame := by
  intro i s t he
  have hnone : ∃ events : List Event, s.transcript = s.transcript ++ events := ⟨[], (List.append_nil _).symm⟩
  cases exec_effect he with
  | refused r =>
    exact ⟨rfl, rfl, rfl, hnone, ⟨_, rfl⟩, fun _ _ => rfl, fun _ => rfl, fun _ => ⟨rfl, rfl⟩⟩
  | created hi hdet =>
    subst hi
    exact ⟨rfl, rfl, rfl, hnone, ⟨_, rfl⟩, fun h => absurd rfl h, fun _ => rfl, fun h => nomatch h⟩
  | released hi =>
    subst hi
    exact ⟨rfl, rfl, rfl, hnone, ⟨_, rfl⟩, fun _ h => absurd rfl h, fun _ => rfl, fun h => nomatch h⟩
  | polled hi =>
    subst hi
    obtain ⟨hlife, hmode, hframed, hconfig⟩ := pollOnce_frame s
    obtain ⟨hrequests, r, htrans⟩ := pollOnce_ran s
    have hresp : ∃ rs, (pollOnce s).responses = s.responses ++ rs := by
      obtain h | ⟨-, h⟩ := pollOnce_responses s
      · exact ⟨_, h⟩
      · exact ⟨[], by rw [h, List.append_nil]⟩
    exact ⟨hrequests, hframed, hconfig, ⟨_, htrans⟩, hresp, fun _ _ => hlife, fun h => absurd rfl h,
      fun _ => ⟨hlife, hmode⟩⟩
  | called hi c =>
    exact ⟨rfl, rfl, rfl, ⟨_, rfl⟩, ⟨[], (List.append_nil _).symm⟩, fun _ _ => rfl, fun _ => rfl, fun _ => ⟨rfl, rfl⟩⟩
  | answered hi _ _ _ u events r hran _ =>
    exact ⟨hran.requests, hran.framed, hran.config, ⟨events, hran.transcript⟩, ⟨[r], by simp [hran.responses]⟩,
      fun _ _ => hran.life, fun _ => hran.activity, fun h => absurd (hi.symm.trans h) (by decide)⟩

/-- A served request leaves the mode, or writes the one of its mode effect. -/
theorem exec_served_mode {i : Instr} {s t : State} (hreq : i.isRequest = true) (hcreate : i ≠ .create)
    (hrelease : i ≠ .release) (hwait : i ≠ .waitWhileBusy) (he : exec i s = .next t) :
    t.mode = s.mode ∨ ∃ c m, modeEffect s.config i = some (c, m) ∧ t.mode = some m :=
  request_keeps (P := fun u => u.mode = s.mode ∨ ∃ c m, modeEffect s.config i = some (c, m) ∧ u.mode = some m)
    (.inl rfl) (fun _ _ h => h) (fun _ _ _ h => h) (fun c m _ hm _ => .inr ⟨c, m, hm, rfl⟩) hreq hcreate hrelease hwait
    he

theorem columnAdmits_of_admission_none {col : ModeColumn} {ok : Bool} {s : State} (h : admission col ok s = none) :
    columnAdmits col s.mode = true := by
  unfold admission at h
  split at h
  · cases h
  · split at h
    · cases h
    · split at h
      · cases h
      · simpa using ‹¬ columnAdmits col s.mode = false›

/-- A request that changes the mode was admitted in its own mode column. -/
theorem columnAdmits_of_mode_changed {i : Instr} {s t : State} (hreq : i.isRequest = true) (hcreate : i ≠ .create)
    (he : exec i s = .next t) (hmode : t.mode ≠ s.mode) : columnAdmits (requestColumn i) s.mode = true := by
  obtain ⟨ok, -, hrefused⟩ := exec_refused s hreq hcreate
  cases hadm : admission (requestColumn i) ok s with
  | some r =>
    obtain rfl := next_inj ((hrefused r hadm).symm.trans he)
    exact absurd rfl hmode
  | none => exact columnAdmits_of_admission_none hadm

/-- The mode each operation with a mode effect starts from and the one it writes. -/
theorem modeEffect_cases {cfg : Config} {i : Instr} {c : Call} {m : Mode} {mode : Option Mode}
    (h : modeEffect cfg i = some (c, m)) (hcol : columnAdmits (requestColumn i) mode = true) :
    (i = .enableWrite ∧ mode = some .read ∧ m = .write) ∨
      ((i = .disableWrite ∨ (∃ pa, i = .erase128kbBlock pa) ∨ ∃ pa, i = .writeDataBufferToMemory pa) ∧
        mode = some .write ∧ m = .read) := by
  cases i with
  | enableWrite => cases h; exact .inl ⟨rfl, of_decide_eq_true hcol, rfl⟩
  | disableWrite => cases h; exact .inr ⟨.inl rfl, of_decide_eq_true hcol, rfl⟩
  | erase128kbBlock pa => cases h; exact .inr ⟨.inr (.inl ⟨pa, rfl⟩), of_decide_eq_true hcol, rfl⟩
  | writeDataBufferToMemory pa => cases h; exact .inr ⟨.inr (.inr ⟨pa, rfl⟩), of_decide_eq_true hcol, rfl⟩
  | _ => cases h

/-- Settles O49: of the requests without a rule of their own, those with a mode effect write it, where admitted. -/
theorem modeChangesOnlyByItsOperations : Obligations.ModeChangesOnlyByItsOperations := by
  intro i s t he hmode
  cases exec_effect he with
  | refused r => exact absurd rfl hmode
  | created hi hdet => exact .inl ⟨hi, hdet, rfl⟩
  | released hi => exact .inr (.inl ⟨hi, rfl⟩)
  | polled hi =>
    obtain ⟨-, hkept, -⟩ := pollOnce_frame s
    exact absurd hkept hmode
  | called hi c => exact absurd rfl hmode
  | answered hi hcreate hrelease hwait u events r hran hacc =>
    obtain hkept | ⟨c, m, heffect, hwritten⟩ := exec_served_mode hi hcreate hrelease hwait he
    · exact absurd hkept hmode
    · refine .inr (.inr ?_)
      obtain ⟨hop, hfrom, rfl⟩ | ⟨hop, hfrom, rfl⟩ :=
        modeEffect_cases heffect (columnAdmits_of_mode_changed hi hcreate he hmode)
      · exact .inl ⟨hop, hfrom, hwritten⟩
      · exact .inr ⟨hop, hfrom, hwritten⟩

/-- Every request is answered by a next state. -/
theorem exec_request_next {i : Instr} (s : State) (h : i.isRequest = true) : ∃ t, exec i s = .next t := by
  cases i with
  | create | release | resetDevice | getJedecId | checkBusy | waitWhileBusy | readStatusRegister
  | readProtectionRegister | readConfigurationRegister | writeProtectionRegister _ | writeConfigurationRegister _ | setWriteProtection _
  | setContinuousReadMode _ | readMemoryToDataBuffer _ | readDataBuffer _ _ _ | readBbmLookupTable | enableWrite
  | disableWrite | erase128kbBlock _ | loadToDataBuffer _ _ _ _ | writeDataBufferToMemory _ => exact ⟨_, rfl⟩
  | _ => cases h

/-- Settles O50: every effect of a request but an iteration of the wait ends in a response. -/
theorem oneResponsePerRequest : Obligations.OneResponsePerRequest := by
  intro i s hreq
  obtain ⟨t, he⟩ := exec_request_next s hreq
  refine ⟨t, he, ?_⟩
  cases exec_effect he with
  | refused r => exact .inl ⟨_, rfl⟩
  | created hi hdet => exact .inl ⟨_, rfl⟩
  | released hi => exact .inl ⟨_, rfl⟩
  | polled hi =>
    obtain h | ⟨hwaiting, h⟩ := pollOnce_responses s
    · exact .inl ⟨_, h⟩
    · exact .inr ⟨hi, hwaiting, h⟩
  | called hi c => exact absurd (hi.symm.trans hreq) (by decide)
  | answered hi _ _ _ u events r hran _ => exact .inl ⟨r, by simp [hran.responses]⟩

/-! The history: an operation that runs the same with an older history before it, up to that history. -/

section
variable (events : List Event) (rs : List Response)

/-- An operation under way, with an older history before its state. -/
def Flow.withEarlier {α : Type} : Flow α → Flow α
  | .done v s => .done v (Machine.withEarlier events rs s)
  | .raised e s => .raised e (Machine.withEarlier events rs s)

/-- `f` does not read the history. -/
def Blind {α : Type} (f : State → Flow α) : Prop :=
  ∀ s, f (withEarlier events rs s) = (f s).withEarlier events rs

theorem transport_withEarlier (c : Call) (s : State) :
    transport c (withEarlier events rs s) = ((transport c s).1, withEarlier events rs (transport c s).2) := by
  simp [transport, withEarlier]

theorem respond_withEarlier (r : Response) (s : State) :
    respond r (withEarlier events rs s) = withEarlier events rs (respond r s) := by
  simp [respond, withEarlier]

variable {events rs}

theorem blind_done {α : Type} (v : α) : Blind events rs (Flow.done v) := fun _ => rfl

theorem blind_setMode {α : Type} (v : α) (m : Mode) : Blind events rs fun s => Flow.done v (setMode m s) := fun _ => rfl

theorem blind_andThen {α β : Type} {f : State → Flow α} {g : α → State → Flow β} (hf : Blind events rs f)
    (hg : ∀ v, Blind events rs (g v)) : Blind events rs fun s => andThen (f s) g := by
  intro s
  dsimp only
  rw [hf s]
  cases f s with
  | done v t => exact hg v t
  | raised e t => rfl

theorem blind_issue (c : Call) : Blind events rs (issue c) := by
  intro s
  unfold issue
  rw [transport_withEarlier]
  obtain ⟨r, t⟩ := transport c s
  cases r <;> rfl

theorem blind_issueWrite (c : Call) : Blind events rs (issueWrite c) :=
  blind_andThen (blind_issue c) fun _ => blind_done ()

theorem blind_readReg (r : ChipRegister) : Blind events rs (readReg r) :=
  blind_andThen (blind_issue _) fun _ => blind_done _

theorem blind_writeReg (r : WritableRegister) (v : Byte) : Blind events rs (writeReg r v) := blind_issueWrite _

/-- A test of a status byte that may raise. -/
theorem blind_raiseIf (p : Prop) [Decidable p] (e : ErrorKind) :
    Blind events rs fun s => if p then .raised e s else .done () s := by
  intro s
  by_cases h : p <;> simp [h, Flow.withEarlier]

theorem blind_preflight (l : StatusLayout) : Blind events rs (preflight l) :=
  blind_andThen (blind_readReg _) fun _ => blind_raiseIf _ _

theorem blind_postCheck (failed : Byte → Bool) : Blind events rs (postCheck failed) :=
  blind_andThen (blind_readReg _) fun _ => blind_raiseIf _ _

/-- A main command, its mode effect and its post-check. -/
theorem blind_postCheck_setMode (failed : Byte → Bool) (m : Mode) :
    Blind (α := Value) events rs fun s => andThen (postCheck failed (setMode m s)) fun _ t => .done .unit t :=
  fun s => blind_andThen (blind_postCheck failed) (fun _ => blind_done Value.unit) (setMode m s)

theorem finish_withEarlier (p : Flow Value) :
    finish (p.withEarlier events rs) = withEarlier events rs (finish p) := by
  cases p <;> exact respond_withEarlier events rs _ _

theorem serve_withEarlier {col : ModeColumn} {ok : Bool} {f : State → Flow Value} (hf : Blind events rs f) (s : State) :
    serve col ok f (withEarlier events rs s) = withEarlier events rs (serve col ok f s) := by
  unfold serve
  rw [show admission col ok (withEarlier events rs s) = admission col ok s from rfl, hf s]
  split
  · exact respond_withEarlier events rs _ s
  · exact finish_withEarlier _

theorem serveGated_withEarlier {col : ModeColumn} {ok : Bool} {f : State → Flow Value} (hf : Blind events rs f)
    (s : State) : serveGated col ok f (withEarlier events rs s) = withEarlier events rs (serveGated col ok f s) :=
  serve_withEarlier (blind_andThen (blind_preflight _) fun _ => hf) s

theorem endWait_withEarlier (s : State) : endWait (withEarlier events rs s) = withEarlier events rs (endWait s) :=
  respond_withEarlier events rs _ { s with activity := .idle }

theorem pollOnce_withEarlier (s : State) : pollOnce (withEarlier events rs s) = withEarlier events rs (pollOnce s) := by
  unfold pollOnce
  rw [transport_withEarlier, show (withEarlier events rs s).config = s.config from rfl]
  obtain ⟨r, t⟩ := transport (callReadRegister .status) s
  cases r with
  | err u => exact endWait_withEarlier t
  | ok bs =>
    dsimp only
    split
    · rfl
    · exact endWait_withEarlier t

variable (events rs) in
/-- The outcome with an older history before its state. -/
def outcomeWithEarlier : Host.Outcome State Fault Refusal → Host.Outcome State Fault Refusal
  | .next t => .next (withEarlier events rs t)
  | .fault f => .fault f
  | .refused r => .refused r

theorem transact_withEarlier (c : Call) (s : State) :
    transact c (withEarlier events rs s) = outcomeWithEarlier events rs (transact c s) := by
  unfold transact
  rw [transport_withEarlier, show (withEarlier events rs s).life = s.life from rfl]
  cases s.life <;> rfl

theorem transactData_withEarlier (c : Call) (n : Nat) (s : State) :
    transactData c n (withEarlier events rs s) = outcomeWithEarlier events rs (transactData c n s) := by
  unfold transactData
  rw [transport_withEarlier, show (withEarlier events rs s).life = s.life from rfl,
    show (withEarlier events rs s).config = s.config from rfl]
  cases s.life with
  | detached => rfl
  | attached =>
    dsimp only
    split
    · rfl
    · exact congrArg Host.Outcome.next (respond_withEarlier events rs _ s)

theorem execCreate_withEarlier (s : State) :
    execCreate (withEarlier events rs s) = outcomeWithEarlier events rs (execCreate s) := by
  unfold execCreate
  rw [show (withEarlier events rs s).life = s.life from rfl]
  cases s.life with
  | attached => exact congrArg Host.Outcome.next (respond_withEarlier events rs _ s)
  | detached =>
    exact congrArg Host.Outcome.next (respond_withEarlier events rs _ { s with life := .attached, mode := some .read })

theorem execWaitWhileBusy_withEarlier (s : State) :
    execWaitWhileBusy (withEarlier events rs s) = outcomeWithEarlier events rs (execWaitWhileBusy s) := by
  unfold execWaitWhileBusy
  rw [show admission .either true (withEarlier events rs s) = admission .either true s from rfl]
  cases admission .either true s with
  | some r => exact congrArg Host.Outcome.next (respond_withEarlier events rs _ s)
  | none => exact congrArg Host.Outcome.next (pollOnce_withEarlier s)

theorem next_serve_withEarlier {col : ModeColumn} {ok : Bool} {f : State → Flow Value} (hf : Blind events rs f)
    (s : State) : Host.Outcome.next (serve col ok f (withEarlier events rs s)) =
      outcomeWithEarlier events rs (.next (serve col ok f s)) :=
  congrArg _ (serve_withEarlier hf s)

theorem next_serveGated_withEarlier {col : ModeColumn} {ok : Bool} {f : State → Flow Value} (hf : Blind events rs f)
    (s : State) : Host.Outcome.next (serveGated col ok f (withEarlier events rs s)) =
      outcomeWithEarlier events rs (.next (serveGated col ok f s)) :=
  congrArg _ (serveGated_withEarlier hf s)

theorem exec_withEarlier (i : Instr) (s : State) :
    exec i (withEarlier events rs s) = outcomeWithEarlier events rs (exec i s) := by
  cases i with
  | create => exact execCreate_withEarlier s
  | waitWhileBusy => exact execWaitWhileBusy_withEarlier s
  | release => exact next_serve_withEarlier (fun _ => rfl) s
  | resetDevice => exact next_serve_withEarlier (blind_andThen (blind_issueWrite _) fun _ => blind_done _) s
  | getJedecId => exact next_serve_withEarlier (blind_andThen (blind_issue _) fun _ => blind_done _) s
  | checkBusy | readStatusRegister =>
    exact next_serve_withEarlier (blind_andThen (blind_readReg _) fun _ => blind_done _) s
  | readProtectionRegister | readConfigurationRegister =>
    exact next_serveGated_withEarlier (blind_andThen (blind_readReg _) fun _ => blind_done _) s
  | writeProtectionRegister _ | writeConfigurationRegister _ | setWriteProtection _ =>
    exact next_serveGated_withEarlier (blind_andThen (blind_writeReg _ _) fun _ => blind_done _) s
  | setContinuousReadMode _ =>
    exact next_serveGated_withEarlier (blind_andThen (blind_readReg _) fun _ =>
      blind_andThen (blind_writeReg _ _) fun _ => blind_done _) s
  | readDataBuffer _ _ _ | readBbmLookupTable =>
    exact next_serveGated_withEarlier (blind_andThen (blind_issue _) fun _ => blind_done _) s
  | readMemoryToDataBuffer _ | loadToDataBuffer _ _ _ _ =>
    exact next_serveGated_withEarlier (blind_andThen (blind_issueWrite _) fun _ => blind_done _) s
  | enableWrite | disableWrite =>
    exact next_serveGated_withEarlier (blind_andThen (blind_issueWrite _) fun _ => blind_setMode _ _) s
  | erase128kbBlock _ | writeDataBufferToMemory _ =>
    exact next_serveGated_withEarlier (blind_andThen (blind_issueWrite _) fun _ => blind_postCheck_setMode _ _) s
  | cmdDeviceReset | cmdJedecId | cmdReadRegister _ | cmdWriteRegister _ _ | cmdWriteEnable | cmdWriteDisable
  | cmdBlockErase _ | cmdPageDataRead _ | cmdProgramExecute _ | cmdReadBbmLut => exact transact_withEarlier _ s
  | cmdLoadClearSingle _ _ | cmdLoadRandomSingle _ _ | cmdLoadClearQuad _ _ | cmdLoadRandomQuad _ _ | cmdFastRead _ _
  | cmdFastReadDualOutput _ _ | cmdFastReadQuadOutput _ _ | cmdFastReadDualIO _ _ | cmdFastReadQuadIO _ _ =>
    exact transactData_withEarlier _ _ s

end

/-- Settles O54: `exec` commutes with putting an older history in front. -/
theorem historyIsNeverRead : Obligations.HistoryIsNeverRead :=
  fun i s _ events rs he => (exec_withEarlier i s).trans (congrArg (outcomeWithEarlier events rs) he)

end Sys2Proof.Machine
end

section
/-! PROOFS of the family other, part 4: the reference device (O56 to O60). -/

namespace Sys2Proof.Machine

/-! Which commands the device answers, and with what. -/

/-- A free device performs every command. -/
theorem chipAnswer_free {l : RegLayout} {c : Call} {i : Instr} {chip : Chip} (hdec : decodeCall c = some i)
    (hfree : chip.busyReads = 0) : chipAnswer l c chip = chipPerform l i chip := by
  unfold chipAnswer
  rw [hdec]
  split
  next heq => cases heq; rfl
  next heq => cases heq; rw [if_neg (by omega)]
  next heq => cases heq

/-- A busy device ignores every command but a status read (R60). -/
theorem chipAnswer_busy {l : RegLayout} {c : Call} {i : Instr} {chip : Chip} (hdec : decodeCall c = some i)
    (hbusy : 0 < chip.busyReads) (hi : i ≠ .cmdReadRegister .status) : chipAnswer l c chip = some ([], chip) := by
  unfold chipAnswer
  rw [hdec]
  split
  next heq => cases heq; contradiction
  next => rw [if_pos hbusy]
  next heq => cases heq

/-- Settles O60: what `chipAnswer_busy` says. -/
theorem busyDeviceIgnoresCommands : Obligations.BusyDeviceIgnoresCommands :=
  fun _ _ _ _ hbusy hdec hi => chipAnswer_busy hdec hbusy hi

/-- A status read is answered at any time. -/
theorem chipAnswer_status (l : RegLayout) (chip : Chip) :
    chipAnswer l (callReadRegister .status) chip = some ([statusByte l.status chip], chipTick chip) := by
  unfold chipAnswer
  rw [decodeCall_readRegister]
  rfl

theorem chipAnswer_load {chip : Chip} (hfree : chip.busyReads = 0) (l : RegLayout) (m : WriteMethod) (clear : Bool)
    (ca : Word) (data : List Byte) :
    chipAnswer l (callLoad m clear ca data) chip = chipGuardedLoad clear ca data chip := by
  cases m with
  | single =>
    cases clear with
    | true => exact chipAnswer_free (decodeCall_loadClearSingle ca data) hfree
    | false => exact chipAnswer_free (decodeCall_loadRandomSingle ca data) hfree
  | quad =>
    cases clear with
    | true => exact chipAnswer_free (decodeCall_loadClearQuad ca data) hfree
    | false => exact chipAnswer_free (decodeCall_loadRandomQuad ca data) hfree

/-- A fast read of any method: ignored by a busy device, performed by a free one. -/
theorem chipAnswer_read (l : RegLayout) (m : ReadMethod) (ca : Word) (n : Nat) (chip : Chip) :
    chipAnswer l (callRead m ca n) chip =
      if 0 < chip.busyReads then some ([], chip) else chipFastRead l.configuration ca n chip := by
  obtain ⟨i, hdec, hi, hperform⟩ : ∃ i, decodeCall (callRead m ca n) = some i ∧ i ≠ .cmdReadRegister .status ∧
      chipPerform l i chip = chipFastRead l.configuration ca n chip := by
    cases m with
    | fastRead => exact ⟨_, decodeCall_fastRead ca n, nofun, rfl⟩
    | fastReadDualOutput => exact ⟨_, decodeCall_fastReadDualOutput ca n, nofun, rfl⟩
    | fastReadQuadOutput => exact ⟨_, decodeCall_fastReadQuadOutput ca n, nofun, rfl⟩
    | fastReadDualIO => exact ⟨_, decodeCall_fastReadDualIO ca n, nofun, rfl⟩
    | fastReadQuadIO => exact ⟨_, decodeCall_fastReadQuadIO ca n, nofun, rfl⟩
  split
  · exact chipAnswer_busy hdec ‹_› hi
  · rw [chipAnswer_free hdec (by omega), hperform]

/-! The loads. -/

/-- A read after a run of writes: inside it the byte written there, outside it the memory's. -/
theorem Memory.read_writeBytes {d : Byte} {m : Memory} (h : Memory.wf d m) (x : Nat) (bs : List Byte) (y : Nat) :
    Memory.read d (Memory.writeBytes d m x bs) y =
      if x ≤ y ∧ y < x + bs.length then bs.getD (y - x) 0 else Memory.read d m y := by
  induction bs generalizing m x with
  | nil => rw [if_neg (by rw [List.length_nil]; omega)]; rfl
  | cons b bs ih =>
    rw [Memory.writeBytes, ih (Memory.write_wf h), Memory.read_write h, List.length_cons]
    by_cases hafter : x + 1 ≤ y ∧ y < x + 1 + bs.length
    · obtain ⟨j, rfl⟩ : ∃ j, y = x + (j + 1) := ⟨y - x - 1, by omega⟩
      rw [if_pos hafter, if_pos (by omega), show x + (j + 1) - (x + 1) = j by omega, Nat.add_sub_cancel_left,
        List.getD_cons_succ]
    · rw [if_neg hafter]
      by_cases hfirst : y = x
      · subst hfirst
        rw [if_pos rfl, if_pos (by omega), Nat.sub_self, List.getD_cons_zero]
      · rw [if_neg hfirst, if_neg (by omega)]

/-- Settles O56: the load starts from an erased buffer or from the one there was, and writes its payload into it. -/
theorem deviceLoadWritesTheBuffer : Obligations.DeviceLoadWritesTheBuffer := by
  intro l m clear ca data chip x hwf hfree hlatch hfits
  refine ⟨chipLoad clear ca data chip, ?_, rfl, ?_⟩
  · rw [chipAnswer_load hfree, chipGuardedLoad, if_neg (by simp [hlatch])]
    exact if_pos hfits
  · cases clear with
    | true => exact Memory.read_writeBytes (Memory.wf_nil _) _ _ _
    | false => exact Memory.read_writeBytes hwf.2 _ _ _

/-! Program, stage, read. -/

/-- The bytes a page data read stages are the page's. -/
theorem read_chipStage_buffer (pa : Word) (chip : Chip) {x : Nat} (h : x < 2112) :
    Memory.read chip.erased (chipStage pa chip).buffer x = Memory.read chip.erased chip.pages (pageBase pa + x) :=
  Memory.read_slice _ _ _ _ _ h

/-- What program execute leaves in the page array: the buffer in the addressed page, and the rest as it was. -/
theorem read_chipProgram_pages (pa : Word) (chip : Chip) (x : Nat) :
    Memory.read chip.erased (chipProgram pa chip).pages x =
      if pageBase pa ≤ x ∧ x < pageBase pa + 2112 then Memory.read chip.erased chip.buffer (x - pageBase pa)
      else Memory.read chip.erased chip.pages x :=
  Memory.read_paste _ _ _ _ _ _

/-- The status shown after a page data read holds the ECC outcome of that read. -/
theorem eccStatus_chipStage {l : StatusLayout} (h : l.Distinct) (pa : Word) (chip : Chip) :
    (decodeStatus l (statusByte l (chipStage pa chip))).eccStatus = chip.eccOutcomes.headD .successful := by
  rw [decodeStatus_statusByte h]
  exact eccDecode_bits _

/-- A fast read of a free device in buffered read mode, within the buffer. -/
theorem chipAnswer_read_buffered {l : RegLayout} {chip : Chip} (hfree : chip.busyReads = 0)
    (hbuf : (decodeConfiguration l.configuration chip.configuration).buf = true) (m : ReadMethod) {ca : Word} {n : Nat}
    (hfits : ca.toNat + n ≤ 2112) :
    chipAnswer l (callRead m ca n) chip = some (Memory.readBytes chip.erased chip.buffer ca.toNat n, chip) := by
  rw [chipAnswer_read, if_neg (by omega), chipFastRead_within hfits, if_pos hbuf]

/-- The device once its operation has ended. -/
def freed (chip : Chip) : Chip := { chip with busyReads := 0 }

/-- Settles O57: the page read back into the buffer is the one programmed from it. -/
theorem deviceProgramStageRead : Obligations.DeviceProgramStageRead := by
  intro l pa chip hfree hlatch
  have hpage {x : Nat} (hx : x < 2112) :
      Memory.read chip.erased (chipProgram pa chip).pages (pageBase pa + x) =
        Memory.read chip.erased chip.buffer x := by
    rw [read_chipProgram_pages, if_pos (by omega), Nat.add_sub_cancel_left]
  have hbuffer {x : Nat} (hx : x < 2112) :
      Memory.read chip.erased (chipStage pa (freed (chipProgram pa chip))).buffer x =
        Memory.read chip.erased chip.buffer x :=
    (read_chipStage_buffer pa (freed (chipProgram pa chip)) hx).trans (hpage hx)
  refine ⟨chipProgram pa chip, chipStage pa (freed (chipProgram pa chip)), ?_, ?_,
    fun x hx => ⟨hpage hx, hbuffer hx⟩, fun x hx => ?_, fun hdistinct => ?_, fun m ca n hbuf hfits => ?_⟩
  · rw [chipAnswer_free (decodeCall_programExecute pa) hfree, chipPerform, if_pos hlatch]
  · exact chipAnswer_free (decodeCall_pageDataRead pa) rfl
  · rw [read_chipProgram_pages, if_neg (by omega)]
  · exact ⟨_, _, chipAnswer_status l _, eccStatus_chipStage hdistinct pa _⟩
  · have hread :=
      chipAnswer_read_buffered (chip := freed (chipStage pa (freed (chipProgram pa chip)))) rfl hbuf m hfits
    refine ⟨_, hread, Memory.readBytes_length _ _ _ _, fun j hj => ?_⟩
    rw [Memory.readBytes_getElem? _ _ _ _ _ hj]
    exact congrArg some (hbuffer (by omega))

/-! Erase. -/

/-- The addresses of a block are those of the pages whose number has the block's quotient by 64. -/
theorem mem_block_iff (ea : Word) (p : Nat) {x : Nat} (hx : x < 2112) :
    (pageTotalSize * blockFirstPage ea ≤ 2112 * p + x ∧
        2112 * p + x < pageTotalSize * blockFirstPage ea + blockTotalSize) ↔ p / 64 = ea.toNat / 64 := by
  simp only [pageTotalSize, blockFirstPage, pagesPerBlock, blockTotalSize]
  omega

/-- Settles O58: the erased range is the block's 64 pages. -/
theorem deviceEraseClearsTheBlock : Obligations.DeviceEraseClearsTheBlock := by
  intro l ea chip hfree hlatch
  refine ⟨chipErase ea chip, ?_, rfl, fun p x hx => ?_⟩
  · rw [chipAnswer_free (decodeCall_blockErase ea) hfree, chipPerform, if_pos hlatch]
  · have hread :=
      Memory.read_erase chip.erased chip.pages (pageTotalSize * blockFirstPage ea) blockTotalSize (2112 * p + x)
    rwa [if_congr (mem_block_iff ea p hx) rfl rfl] at hread

/-! The frame. -/

/-- What the device can have done at a call. -/
inductive ChipMove : Call → Chip → Chip → Prop
  | kept (c : Call) (chip : Chip) : ChipMove c chip chip
  | ticked (chip : Chip) : ChipMove (callReadRegister .status) chip (chipTick chip)
  | protectionWritten (v : Byte) (chip : Chip) :
    ChipMove (callWriteRegister .protection v) chip { chip with protection := v }
  | configurationWritten (v : Byte) (chip : Chip) :
    ChipMove (callWriteRegister .configuration v) chip { chip with configuration := v }
  | latchSet (chip : Chip) : ChipMove callWriteEnable chip { chip with writeEnabled := true }
  | latchCleared (chip : Chip) : ChipMove callWriteDisable chip { chip with writeEnabled := false }
  | erased (ea : Word) (chip : Chip) : ChipMove (callBlockErase ea) chip (chipErase ea chip)
  | programmed (pa : Word) (chip : Chip) : ChipMove (callProgramExecute pa) chip (chipProgram pa chip)
  | staged (pa : Word) (chip : Chip) : ChipMove (callPageDataRead pa) chip (chipStage pa chip)
  | loaded (m : WriteMethod) (clear : Bool) (ca : Word) (data : List Byte) (chip : Chip) :
    ChipMove (callLoad m clear ca data) chip (chipLoad clear ca data chip)

theorem chipMove_load {m : WriteMethod} {clear : Bool} {ca : Word} {data bs : List Byte} {chip chip' : Chip}
    (h : chipGuardedLoad clear ca data chip = some (bs, chip')) : ChipMove (callLoad m clear ca data) chip chip' := by
  unfold chipGuardedLoad at h
  split at h
  · cases h; exact .kept _ _
  · split at h
    · cases h; exact .loaded m clear ca data chip
    · cases h

theorem chipMove_read {l : ConfigurationLayout} {c : Call} {ca : Word} {n : Nat} {bs : List Byte} {chip chip' : Chip}
    (h : chipFastRead l ca n chip = some (bs, chip')) : ChipMove c chip chip' :=
  chipFastRead_keeps h ▸ .kept _ _

/-- What performing a command does, by its call. -/
theorem chipPerform_move {l : RegLayout} {c : Call} {i : Instr} {bs : List Byte} {chip chip' : Chip}
    (hdec : decodeCall c = some i) (h : chipPerform l i chip = some (bs, chip')) : ChipMove c chip chip' := by
  have hcall := decodedCallsEncodeBack l c i hdec
  cases i with
  | cmdJedecId | cmdReadBbmLut => cases h; exact .kept _ _
  | cmdReadRegister r =>
    cases hcall
    cases r with
    | status => cases h; exact .ticked _
    | protection | configuration => cases h; exact .kept _ _
  | cmdWriteRegister r v =>
    cases hcall
    cases r with
    | protection => cases h; exact .protectionWritten v _
    | configuration => cases h; exact .configurationWritten v _
  | cmdWriteEnable => cases hcall; cases h; exact .latchSet _
  | cmdWriteDisable => cases hcall; cases h; exact .latchCleared _
  | cmdBlockErase ea =>
    cases hcall; cases h
    split
    · exact .erased ea _
    · exact .kept _ _
  | cmdProgramExecute pa =>
    cases hcall; cases h
    split
    · exact .programmed pa _
    · exact .kept _ _
  | cmdPageDataRead pa => cases hcall; cases h; exact .staged pa _
  | cmdLoadClearSingle ca data => cases hcall; exact chipMove_load (m := .single) h
  | cmdLoadRandomSingle ca data => cases hcall; exact chipMove_load (m := .single) h
  | cmdLoadClearQuad ca data => cases hcall; exact chipMove_load (m := .quad) h
  | cmdLoadRandomQuad ca data => cases hcall; exact chipMove_load (m := .quad) h
  | cmdFastRead _ _ | cmdFastReadDualOutput _ _ | cmdFastReadQuadOutput _ _ | cmdFastReadDualIO _ _
  | cmdFastReadQuadIO _ _ => exact chipMove_read h
  | _ => cases h

theorem chipAnswer_move {l : RegLayout} {c : Call} {bs : List Byte} {chip chip' : Chip}
    (h : chipAnswer l c chip = some (bs, chip')) : ChipMove c chip chip' := by
  unfold chipAnswer at h
  split at h
  next hdec => exact chipPerform_move hdec h
  next hdec =>
    split at h
    · cases h; exact .kept _ _
    · exact chipPerform_move hdec h
  next => cases h

/-- Settles O59: each move writes its own fields, and a fast read is no move. -/
theorem deviceFrame : Obligations.DeviceFrame := by
  refine ⟨fun l c i chip chip' bs hdec hanswer => ?_, fun l m ca n chip hfits => ?_⟩
  · cases chipAnswer_move hanswer with
    | kept => simp
    | ticked => simp [chipTick]
    | protectionWritten v =>
      obtain rfl := Option.some.inj ((decodeCall_writeRegister .protection v).symm.trans hdec)
      simp
    | configurationWritten v =>
      obtain rfl := Option.some.inj ((decodeCall_writeRegister .configuration v).symm.trans hdec)
      simp
    | latchSet =>
      obtain rfl := Option.some.inj (decodeCall_writeEnable.symm.trans hdec)
      simp
    | latchCleared =>
      obtain rfl := Option.some.inj (decodeCall_writeDisable.symm.trans hdec)
      simp
    | erased ea =>
      obtain rfl := Option.some.inj ((decodeCall_blockErase ea).symm.trans hdec)
      simp [chipErase, chipStart]
    | programmed pa =>
      obtain rfl := Option.some.inj ((decodeCall_programExecute pa).symm.trans hdec)
      simp [chipProgram, chipStart]
    | staged pa =>
      obtain rfl := Option.some.inj ((decodeCall_pageDataRead pa).symm.trans hdec)
      simp [chipStage, chipEcc, chipStart]
    | loaded m clear ca data =>
      exact ⟨fun _ _ => rfl, fun _ h => absurd rfl (h m clear ca data), fun _ => ⟨rfl, rfl⟩, fun _ => rfl, fun _ => rfl,
        fun _ _ _ _ => rfl, rfl, rfl, rfl, rfl, rfl⟩
  · rw [chipAnswer_read, chipFastRead_within hfits]
    split <;> exact ⟨_, rfl⟩

end Sys2Proof.Machine
end
